-- ==== Sys2Proof/Word.lean ====
section
/-! DEFINITION. The word types of the command port (30_encoding.md R90, R91) and the plainest arithmetic of the
notation (00_scope.md R13). All values are unsigned (R12). -/

namespace Sys2Proof

/-- A command word or a response word: exactly 64 bits (R90). -/
abbrev PortWord := BitVec 64

/-- The `a` or `b` field of a command: a slot number (R91). -/
abbrev SlotNo := BitVec 4

/-- The `s` field or the `rs` field (R91, R93). -/
abbrev Short := BitVec 16

/-- The `imm` field or the `rv` field (R91, R93). -/
abbrev Long := BitVec 32

/-- A symbol: its SYMW significant bits (SYMW ≤ 15), zero-extended to the 16 bits of the `s` field (R38, R92). -/
abbrev Sym := BitVec 16

/-- `ceil_div(a, b) = (a + b − 1) div b` (R13). -/
abbrev ceilDiv (a b : Nat) : Nat := (a + b - 1) / b

end Sys2Proof
end

