-- ==== Sys2Proof/Config.lean ====
section
/-! DEFINITION. The implementation parameters (00_scope.md R8, R9, R10) and the free values: the draw of
00_scope.md R13, and the model's own for a node that does not exist. -/

namespace Sys2Proof

/-- The setting of a tie parameter (R9): always the left (first) choice, always the right, or a fresh draw each
time. -/
inductive TieRule where
  | left
  | right
  | any
  deriving DecidableEq, Repr

/-- The parameter record a model takes as an argument (R9). -/
structure Params where
  /-- `W`: bits per word of a container's backing store (R8). -/
  w : Nat
  /-- `NBC`: number of bit-container slots. -/
  nbc : Nat
  /-- `BC_MAXBITS`: greatest logical length, and greatest capacity, of one container. -/
  bcMaxBits : Nat
  /-- `PQ_CAP`: greatest number of entries in the host-visible heap. -/
  pqCap : Nat
  /-- `SYMW`: bits per symbol. -/
  symw : Nat
  /-- `SB_CAP`: greatest number of symbols in the symbol buffer. -/
  sbCap : Nat
  /-- `PQ_TIE` (42_priority_queue.md R163). -/
  pqTie : TieRule
  /-- `HC_TIE` (43_huffman_codec.md R198). -/
  hcTie : TieRule
  /-- `HC_FIRST` (43_huffman_codec.md R205). -/
  hcFirst : TieRule
  deriving DecidableEq, Repr

/-- The default column of R9. -/
def Params.default : Params where
  w := 64
  nbc := 16
  bcMaxBits := 65536
  pqCap := 1024
  symw := 8
  sbCap := 65536
  pqTie := .any
  hcTie := .any
  hcFirst := .any

/-- The reference refinement REF of the glossary: the defaults with every tie taken to the left. -/
def Params.ref : Params :=
  { Params.default with pqTie := .left, hcTie := .left, hcFirst := .left }

/-- `NSYM = 2^SYMW`, the number of possible symbols (R10). -/
def Params.nsym (p : Params) : Nat := 2 ^ p.symw

/-- The constraint column of R9 with R8: `W` is a power of two and at least 8. -/
structure Params.Valid (p : Params) : Prop where
  w_pow : 2 ^ Nat.log2 p.w = p.w
  w_ge : 8 ≤ p.w
  nbc_ge : 1 ≤ p.nbc
  nbc_le : p.nbc ≤ 16
  bits_mod : p.bcMaxBits % p.w = 0
  bits_ge : p.w ≤ p.bcMaxBits
  bits_le : p.bcMaxBits ≤ 2 ^ 32 - p.w
  pqCap_ge : 1 ≤ p.pqCap
  pqCap_le : p.pqCap ≤ 2 ^ 32 - 1
  symw_ge : 1 ≤ p.symw
  symw_le : p.symw ≤ 15
  sbCap_ge : 1 ≤ p.sbCap
  sbCap_le : p.sbCap ≤ 2 ^ 32 - 1

/-- The free value of the spec, `draw({first, second})` of R13: the n-th draw of a run, `true` for the second
element. It has no body: "A claim about HUFFCORE must hold for every draw" (R13). DESIGN CHOICE, safe (log 4). -/
opaque Config.draw : Nat → Bool

namespace Machine

/-- A node of the arena (10_state.md R39): a leaf with its symbol, or an internal node with the handles of its
children. -/
inductive Node where
  | leaf (sym : Sym)
  | internal (left right : Nat)
  deriving DecidableEq, Repr, Inhabited

end Machine

/-- What NODE holds at a handle that names no node. The invariants of 10_state.md R39 to R41 rule such a read out, and
the spec gives it no value; 60_exceptions.md R279 still asks for a response "in every state". It has no body. DESIGN
CHOICE, safe (log 7). -/
opaque Config.absentNode : Nat → Machine.Node

end Sys2Proof
end

