-- ==== Sys2Proof/Syntax.lean ====
section
/-! DEFINITION. The 35 commands (30_encoding.md R95), one constructor for each row of the opcode table, with the
operands the row uses. -/

namespace Sys2Proof

/-- A command. Operands are the unsigned fields of the command word (R91, R92): a slot of the `a` or `b` field, a
bit `s[0]`, the `s` field, the `imm` field. -/
inductive Instr where
  /-- SYS.NOP (R245) -/
  | sysNop
  /-- SYS.RESET (R246) -/
  | sysReset
  /-- SYS.INFO k (R247) -/
  | sysInfo (k : Long)
  /-- BC.NEW cA, nbits (R121) -/
  | bcNew (a : SlotNo) (nbits : Long)
  /-- BC.PUSH cA, v (R123) -/
  | bcPush (a : SlotNo) (v : Bool)
  /-- BC.POP cA (R125) -/
  | bcPop (a : SlotNo)
  /-- BC.GET cA, j (R127) -/
  | bcGet (a : SlotNo) (j : Long)
  /-- BC.SET cA, j, v (R129) -/
  | bcSet (a : SlotNo) (j : Long) (v : Bool)
  /-- BC.FILL cA, v (R131) -/
  | bcFill (a : SlotNo) (v : Bool)
  /-- BC.EXTEND cA, cB (R133) -/
  | bcExtend (a b : SlotNo)
  /-- BC.EXTI cA, imm, n (R135) -/
  | bcExti (a : SlotNo) (imm : Long) (n : Short)
  /-- BC.CLEAR cA (R137) -/
  | bcClear (a : SlotNo)
  /-- BC.LEN cA (R139) -/
  | bcLen (a : SlotNo)
  /-- BC.CAP cA (R141) -/
  | bcCap (a : SlotNo)
  /-- BC.SOPEN cA (R143) -/
  | bcSopen (a : SlotNo)
  /-- BC.SNEXT (R145) -/
  | bcSnext
  /-- BC.SCLOSE (R147) -/
  | bcSclose
  /-- PQ.CFG v (R161) -/
  | pqCfg (v : Bool)
  /-- PQ.PUSH key, val (R165) -/
  | pqPush (key : Long) (val : Short)
  /-- PQ.POP (R167) -/
  | pqPop
  /-- PQ.PEEK (R169) -/
  | pqPeek
  /-- PQ.LEN (R171) -/
  | pqLen
  /-- HC.FCLR (R191) -/
  | hcFclr
  /-- HC.FPUT weight, sym (R193) -/
  | hcFput (weight : Long) (sym : Sym)
  /-- HC.FGET sym (R195) -/
  | hcFget (sym : Sym)
  /-- HC.BUILD (R197) -/
  | hcBuild
  /-- HC.STAT (R211) -/
  | hcStat
  /-- HC.NODE h (R213) -/
  | hcNode (h : Long)
  /-- HC.CWGET cA, sym (R215) -/
  | hcCwget (a : SlotNo) (sym : Sym)
  /-- HC.ENCODE cA (R220) -/
  | hcEncode (a : SlotNo)
  /-- HC.DECODE cB, count (R225) -/
  | hcDecode (b : SlotNo) (count : Long)
  /-- SB.CLR (R241) -/
  | sbClr
  /-- SB.PUSH sym (R242) -/
  | sbPush (sym : Sym)
  /-- SB.GET idx (R243) -/
  | sbGet (idx : Long)
  /-- SB.LEN (R244) -/
  | sbLen
  deriving DecidableEq, Repr

end Sys2Proof
end

