-- ==== Sys2Proof/WellFormed.lean ====
section
/-! DEFINITION. When a command is well formed (30_encoding.md R98 to R101): its slots are below NBC, its symbol is
below NSYM, and the literal of BC.EXTI fits its count. It depends on the command and the parameters alone (R101). -/

namespace Sys2Proof

/-- A slot operand is in range (R98). -/
abbrev slotInRange (p : Params) (a : SlotNo) : Prop := a.toNat < p.nbc

/-- A symbol operand is in range (R99). -/
abbrev symInRange (p : Params) (s : Sym) : Prop := s.toNat < p.nsym

/-- The BC.EXTI literal check (R100): at most 32 bits, and no literal bit at or above position `n`. -/
abbrev literalFits (imm : Long) (n : Short) : Prop := n.toNat ≤ 32 ∧ imm.toNat < 2 ^ n.toNat

/-- The operands of a command are legal. -/
def Instr.wf (p : Params) : Instr → Bool
  | .sysNop => true
  | .sysReset => true
  | .sysInfo _ => true
  | .bcNew a _ => slotInRange p a
  | .bcPush a _ => slotInRange p a
  | .bcPop a => slotInRange p a
  | .bcGet a _ => slotInRange p a
  | .bcSet a _ _ => slotInRange p a
  | .bcFill a _ => slotInRange p a
  | .bcExtend a b => slotInRange p a ∧ slotInRange p b
  | .bcExti a imm n => slotInRange p a ∧ literalFits imm n
  | .bcClear a => slotInRange p a
  | .bcLen a => slotInRange p a
  | .bcCap a => slotInRange p a
  | .bcSopen a => slotInRange p a
  | .bcSnext => true
  | .bcSclose => true
  | .pqCfg _ => true
  | .pqPush _ _ => true
  | .pqPop => true
  | .pqPeek => true
  | .pqLen => true
  | .hcFclr => true
  | .hcFput _ s => symInRange p s
  | .hcFget s => symInRange p s
  | .hcBuild => true
  | .hcStat => true
  | .hcNode _ => true
  | .hcCwget a s => slotInRange p a ∧ symInRange p s
  | .hcEncode a => slotInRange p a
  | .hcDecode b _ => slotInRange p b
  | .sbClr => true
  | .sbPush s => symInRange p s
  | .sbGet _ => true
  | .sbLen => true

end Sys2Proof
end

