-- ==== Sys2Proof/Decode.lean ====
section
/-! DEFINITION. The decoder, total on all 64-bit words, rejecting by name (30_encoding.md R101), and the encoder,
both written from the opcode map of R95 held as one table. -/

namespace Sys2Proof

/-- Why a command word is ill formed; each is answered ILLEGAL_COMMAND (R101). -/
inductive Illegal where
  /-- R96: the opcode is not in the table -/
  | reservedOpcode
  /-- R97: a field the command does not use is not zero -/
  | unusedField
  /-- R98: a slot number is not below NBC -/
  | slotRange
  /-- R99: a symbol is not below NSYM -/
  | symbolRange
  /-- R100: the BC.EXTI count is above 32 or the literal has a bit above its count -/
  | literalBits
  deriving DecidableEq, Repr

/-- The five fields of command format C (R91). -/
structure Fields where
  op : BitVec 8
  a : SlotNo
  b : SlotNo
  s : Short
  imm : Long
  deriving DecidableEq, Repr

/-- Split a command word by R91: `op` 7:0, `a` 11:8, `b` 15:12, `s` 31:16, `imm` 63:32. -/
def Fields.ofWord (w : PortWord) : Fields where
  op := w.extractLsb' 0 8
  a := w.extractLsb' 8 4
  b := w.extractLsb' 12 4
  s := w.extractLsb' 16 16
  imm := w.extractLsb' 32 32

/-- Put the fields together by R91; `imm` is the high end. -/
def Fields.toWord (f : Fields) : PortWord :=
  f.imm ++ f.s ++ f.b ++ f.a ++ f.op

/-- How a command uses its `s` field (R95): not at all, as the bit `s[0]`, as a payload of 16 bits, as a symbol, or
as the bit count of BC.EXTI. -/
inductive ShortUse where
  | none
  | bit
  | payload
  | symbol
  | count
  deriving DecidableEq, Repr

/-- One row of the opcode map (R95): the opcode, which of the fields are used, and the command made of them. -/
structure OpRow where
  op : BitVec 8
  useA : Bool
  useB : Bool
  useS : ShortUse
  useImm : Bool
  make : Fields → Instr

/-- The bit operand `s[0]` (R92). -/
def Fields.bit (f : Fields) : Bool := f.s.getLsbD 0

/-- The SYS rows of R95. -/
def sysRows : List OpRow :=
  [ ⟨0x00, false, false, .none, false, fun _ => .sysNop⟩,
    ⟨0x01, false, false, .none, false, fun _ => .sysReset⟩,
    ⟨0x02, false, false, .none, true, fun f => .sysInfo f.imm⟩ ]

/-- The BC rows of R95. -/
def bcRows : List OpRow :=
  [ ⟨0x10, true, false, .none, true, fun f => .bcNew f.a f.imm⟩,
    ⟨0x11, true, false, .bit, false, fun f => .bcPush f.a f.bit⟩,
    ⟨0x12, true, false, .none, false, fun f => .bcPop f.a⟩,
    ⟨0x13, true, false, .none, true, fun f => .bcGet f.a f.imm⟩,
    ⟨0x14, true, false, .bit, true, fun f => .bcSet f.a f.imm f.bit⟩,
    ⟨0x15, true, false, .bit, false, fun f => .bcFill f.a f.bit⟩,
    ⟨0x16, true, true, .none, false, fun f => .bcExtend f.a f.b⟩,
    ⟨0x17, true, false, .count, true, fun f => .bcExti f.a f.imm f.s⟩,
    ⟨0x18, true, false, .none, false, fun f => .bcClear f.a⟩,
    ⟨0x19, true, false, .none, false, fun f => .bcLen f.a⟩,
    ⟨0x1A, true, false, .none, false, fun f => .bcCap f.a⟩,
    ⟨0x1B, true, false, .none, false, fun f => .bcSopen f.a⟩,
    ⟨0x1C, false, false, .none, false, fun _ => .bcSnext⟩,
    ⟨0x1D, false, false, .none, false, fun _ => .bcSclose⟩ ]

/-- The PQ rows of R95. -/
def pqRows : List OpRow :=
  [ ⟨0x20, false, false, .bit, false, fun f => .pqCfg f.bit⟩,
    ⟨0x21, false, false, .payload, true, fun f => .pqPush f.imm f.s⟩,
    ⟨0x22, false, false, .none, false, fun _ => .pqPop⟩,
    ⟨0x23, false, false, .none, false, fun _ => .pqPeek⟩,
    ⟨0x24, false, false, .none, false, fun _ => .pqLen⟩ ]

/-- The HC rows of R95. -/
def hcRows : List OpRow :=
  [ ⟨0x30, false, false, .none, false, fun _ => .hcFclr⟩,
    ⟨0x31, false, false, .symbol, true, fun f => .hcFput f.imm f.s⟩,
    ⟨0x32, false, false, .symbol, false, fun f => .hcFget f.s⟩,
    ⟨0x33, false, false, .none, false, fun _ => .hcBuild⟩,
    ⟨0x34, false, false, .none, false, fun _ => .hcStat⟩,
    ⟨0x35, false, false, .none, true, fun f => .hcNode f.imm⟩,
    ⟨0x36, true, false, .symbol, false, fun f => .hcCwget f.a f.s⟩,
    ⟨0x37, true, false, .none, false, fun f => .hcEncode f.a⟩,
    ⟨0x38, false, true, .none, true, fun f => .hcDecode f.b f.imm⟩ ]

/-- The SB rows of R95. -/
def sbRows : List OpRow :=
  [ ⟨0x40, false, false, .none, false, fun _ => .sbClr⟩,
    ⟨0x41, false, false, .symbol, false, fun f => .sbPush f.s⟩,
    ⟨0x42, false, false, .none, true, fun f => .sbGet f.imm⟩,
    ⟨0x43, false, false, .none, false, fun _ => .sbLen⟩ ]

/-- The opcode map, complete (R95); every other opcode is reserved (R96). -/
def opcodeMap : List OpRow := sysRows ++ bcRows ++ pqRows ++ hcRows ++ sbRows

/-- The row of an opcode. -/
def rowOf (op : BitVec 8) : Option OpRow := opcodeMap.find? (fun r => r.op == op)

/-- Every field the row does not use is zero, and where only `s[0]` is used `s[15:1]` is zero (R97). -/
def OpRow.unusedZero (r : OpRow) (f : Fields) : Bool :=
  (r.useA || f.a == 0) && (r.useB || f.b == 0) && (r.useImm || f.imm == 0) &&
    match r.useS with
    | .none => f.s == 0
    | .bit => f.s.extractLsb' 1 15 == 0
    | .payload => true
    | .symbol => true
    | .count => true

/-- The slot operands are below NBC (R98). -/
def OpRow.slotsOk (p : Params) (r : OpRow) (f : Fields) : Bool :=
  (!r.useA || decide (f.a.toNat < p.nbc)) && (!r.useB || decide (f.b.toNat < p.nbc))

/-- The symbol operand is below NSYM (R99). -/
def OpRow.symbolOk (p : Params) (r : OpRow) (f : Fields) : Bool :=
  match r.useS with
  | .symbol => decide (f.s.toNat < p.nsym)
  | _ => true

/-- The BC.EXTI literal check (R100): the count is at most 32 and `imm >> s` is zero. -/
def OpRow.literalOk (r : OpRow) (f : Fields) : Bool :=
  match r.useS with
  | .count => decide (f.s.toNat ≤ 32) && f.imm.toNat >>> f.s.toNat == 0
  | _ => true

/-- The decode procedure (R101), on the fields. -/
def decodeFields (p : Params) (f : Fields) : Except Illegal Instr :=
  match rowOf f.op with
  | none => .error .reservedOpcode
  | some r =>
    if !r.unusedZero f then .error .unusedField
    else if !r.slotsOk p f then .error .slotRange
    else if !r.symbolOk p f then .error .symbolRange
    else if !r.literalOk f then .error .literalBits
    else .ok (r.make f)

/-- The decode procedure, total on all 64-bit words (R101). -/
def decode (p : Params) (w : PortWord) : Except Illegal Instr := decodeFields p (Fields.ofWord w)

/-- The `s` field of a bit operand: `s[0]` is the bit, `s[15:1]` is zero (R92). -/
def bitShort (v : Bool) : Short := if v then 1 else 0

/-- The fields of a command (R95): its opcode, the operands it has, zero in every unused field (R97). -/
def Instr.fields : Instr → Fields
  | .sysNop => ⟨0x00, 0, 0, 0, 0⟩
  | .sysReset => ⟨0x01, 0, 0, 0, 0⟩
  | .sysInfo k => ⟨0x02, 0, 0, 0, k⟩
  | .bcNew a nbits => ⟨0x10, a, 0, 0, nbits⟩
  | .bcPush a v => ⟨0x11, a, 0, bitShort v, 0⟩
  | .bcPop a => ⟨0x12, a, 0, 0, 0⟩
  | .bcGet a j => ⟨0x13, a, 0, 0, j⟩
  | .bcSet a j v => ⟨0x14, a, 0, bitShort v, j⟩
  | .bcFill a v => ⟨0x15, a, 0, bitShort v, 0⟩
  | .bcExtend a b => ⟨0x16, a, b, 0, 0⟩
  | .bcExti a imm n => ⟨0x17, a, 0, n, imm⟩
  | .bcClear a => ⟨0x18, a, 0, 0, 0⟩
  | .bcLen a => ⟨0x19, a, 0, 0, 0⟩
  | .bcCap a => ⟨0x1A, a, 0, 0, 0⟩
  | .bcSopen a => ⟨0x1B, a, 0, 0, 0⟩
  | .bcSnext => ⟨0x1C, 0, 0, 0, 0⟩
  | .bcSclose => ⟨0x1D, 0, 0, 0, 0⟩
  | .pqCfg v => ⟨0x20, 0, 0, bitShort v, 0⟩
  | .pqPush key val => ⟨0x21, 0, 0, val, key⟩
  | .pqPop => ⟨0x22, 0, 0, 0, 0⟩
  | .pqPeek => ⟨0x23, 0, 0, 0, 0⟩
  | .pqLen => ⟨0x24, 0, 0, 0, 0⟩
  | .hcFclr => ⟨0x30, 0, 0, 0, 0⟩
  | .hcFput weight sym => ⟨0x31, 0, 0, sym, weight⟩
  | .hcFget sym => ⟨0x32, 0, 0, sym, 0⟩
  | .hcBuild => ⟨0x33, 0, 0, 0, 0⟩
  | .hcStat => ⟨0x34, 0, 0, 0, 0⟩
  | .hcNode h => ⟨0x35, 0, 0, 0, h⟩
  | .hcCwget a sym => ⟨0x36, a, 0, sym, 0⟩
  | .hcEncode a => ⟨0x37, a, 0, 0, 0⟩
  | .hcDecode b count => ⟨0x38, 0, b, 0, count⟩
  | .sbClr => ⟨0x40, 0, 0, 0, 0⟩
  | .sbPush sym => ⟨0x41, 0, 0, sym, 0⟩
  | .sbGet idx => ⟨0x42, 0, 0, 0, idx⟩
  | .sbLen => ⟨0x43, 0, 0, 0, 0⟩

/-- The command word of a command (R91, R95). -/
def encode (i : Instr) : PortWord := i.fields.toWord

/-- What the decoder reads, under the default parameters, from an instruction given as a number: a command word is
carried "as a number" (R90), so bit 0 of `w` is bit 0 of the word. -/
def decodeTableWord (nbits w : Nat) : Option Instr :=
  (decode Params.default (BitVec.ofNat 64 (w % 2 ^ nbits))).toOption

end Sys2Proof
end

