-- ==== Sys2Proof/Machine/State.lean ====
section
/-! DEFINITION. The whole state of HUFFCORE as plain data (10_state.md R20), with the model's own fields for the
parameters, the host's commands, the last response and the draws (R47), and the reset state (R48). -/

namespace Sys2Proof.Machine

/-- The statuses of a response (60_exceptions.md R261). -/
inductive Status where
  | ok
  | empty
  | outOfRange
  | unknownSymbol
  | truncatedInput
  | emptyTree
  | endOfStream
  | illegalCommand
  | capacityExceeded
  | busy
  | invariantViolation
  deriving DecidableEq, Repr

/-- A response: the fields of format Q (30_encoding.md R93). -/
structure Response where
  status : Status
  fl : BitVec 8
  rs : Short
  rv : Long
  deriving DecidableEq, Repr

/-- What the outside presents to HUFFCORE: a command word of the host (00_scope.md R7), or the platform reset signal
(70_reset_and_hazards.md R290). -/
inductive Input where
  | command (w : PortWord)
  | resetSignal
  deriving DecidableEq, Repr

/-- One bit-container slot (R21) as the pair of its value `bits(i)`, bit 0 first, and its number of allocated words
`nw` (R23, R24; log 5). Its logical length `len` is the length of `bits`. -/
structure Container where
  bits : List Bool
  nw : Nat
  deriving DecidableEq, Repr

/-- The byte-stream register STRM (R27): no run, or a run over `slot` whose next byte has index `k`. -/
inductive ByteStream where
  | inactive
  | active (slot : SlotNo) (k : Nat)
  deriving DecidableEq, Repr

/-- An entry of the host-visible queue: a priority key and an opaque payload (R35). -/
structure Entry where
  key : Long
  val : Short
  deriving DecidableEq, Repr

/-- A memory indexed by symbol whose entries may be absent (R38, R42): the present symbols with their values, in
ascending order of symbol; an absent symbol is not listed (log 6). -/
abbrev Table (β : Type) := List (Sym × β)

/-- The state: the tuple of R20, then the model's own fields. -/
structure State where
  /-- `BC[0..NBC−1]` with their bit stores (R21, R23) -/
  slots : List Container
  /-- `STRM` (R27) -/
  strm : ByteStream
  /-- `PQ.inv` (R32): `false` a max-heap, `true` a min-heap -/
  pqInv : Bool
  /-- `PQH[0..PQ.n−1]` (R33); `PQ.n` is its length (log 8) -/
  pqh : List Entry
  /-- `FT` (R38) -/
  ft : Table Long
  /-- `NODE[0..HC.nn−1]` (R39, R40); `HC.nn` is its length (log 8) -/
  nodes : List Node
  /-- `CWT` (R42) -/
  cwt : Table (List Bool)
  /-- `SBM[0..SB.n−1]` (R44); `SB.n` is its length (log 8) -/
  sb : List Sym
  /-- the model's own: the parameters the hardware was built with (00_scope.md R9); no step writes them (log 1) -/
  par : Params
  /-- the model's own: what the host will present, oldest first (R47; log 2) -/
  inputs : List Input
  /-- the model's own: the response to the last command, none before the first (30_encoding.md R93; log 3) -/
  rsp : Option Response
  /-- the model's own: how many draws have been taken (00_scope.md R13; log 4) -/
  draws : Nat
  deriving DecidableEq, Repr

/-- Why the machine stops with a fault: never. "it returns a next state and a response, never a fault without a
response and never a refusal" (60_exceptions.md R279), so there is no reason for one. -/
inductive Fault
  deriving DecidableEq, Repr

/-- Why the model has no meaning for a command. Raised by no arm of this model. -/
inductive Refusal where
  /-- Raised by an arm of exec that has no meaning yet; safe. No arm raises it. -/
  | notModelled (mnemonic : String)
  deriving DecidableEq, Repr

/-- What a step answers. -/
abbrev Answer := Host.Outcome State Fault Refusal

/-- A container just after reset: empty, no word allocated (R48). -/
def Container.empty : Container := ⟨[], 0⟩

/-- The reset state of a machine built with parameters `p` (R48): every unit empty, the stream inactive, a max-heap,
no tree. The model's own fields: no command presented, no response given, no draw taken. -/
def State.resetWith (p : Params) : State where
  slots := List.replicate p.nbc Container.empty
  strm := .inactive
  pqInv := false
  pqh := []
  ft := []
  nodes := []
  cwt := []
  sb := []
  par := p
  inputs := []
  rsp := none
  draws := 0

/-- The machine right after reset, built with the default parameters of R9 (log 1). -/
def State.reset : State := State.resetWith Params.default

end Sys2Proof.Machine
end

