-- ==== Sys2Proof/Machine/Flags.lean ====
section
/-! DEFINITION. The flag field `fl` of a response, complete (30_encoding.md R94). Flags are not kept: each belongs
to the response that carries it (10_state.md R31). -/

namespace Sys2Proof.Machine

/-- `fl` with bit 0 as given and every other bit 0 (R94). -/
def flag0 (v : Bool) : BitVec 8 := if v then 1 else 0

/-- "empty" in BC.LEN and SB.LEN: 1 when the length returned is 0 (R94). -/
def emptyFlag (n : Nat) : BitVec 8 := flag0 (n == 0)

/-- PQ.LEN: `fl[0]` is "empty", `fl[1]` is the current `PQ.inv` (R94). -/
def pqLenFlags (n : Nat) (inv : Bool) : BitVec 8 := emptyFlag n ||| (if inv then 2 else 0)

end Sys2Proof.Machine
end

