-- ==== Sys2Proof/Machine/Operands.lean ====
section
/-! DEFINITION. Operand forms of the command word (30_encoding.md R92) and of the response word (R93). Every field is
unsigned and used as it stands. -/

namespace Sys2Proof.Machine

/-- The literal bits of BC.EXTI, `imm[0]` first, `n` of them (R92). -/
def literalBits (imm : Long) (n : Nat) : List Bool := (List.range n).map fun t => imm.getLsbD t

/-- A length, count, capacity, index or parameter in the `rv` field (R93); exact for every number below 2^32 (R81). -/
def longOf (n : Nat) : Long := BitVec.ofNat 32 n

/-- A bit in `rv[0]` (R93). -/
def longOfBit (b : Bool) : Long := if b then 1 else 0

/-- A handle or a byte in the `rs` field (R93). -/
def shortOf (n : Nat) : Short := BitVec.ofNat 16 n

/-- Two child handles in `rv`: `rv[15:0]` the left, `rv[31:16]` the right (R213). -/
def longOfChildren (left right : Nat) : Long := BitVec.ofNat 16 right ++ BitVec.ofNat 16 left

/-- The status numbers (60_exceptions.md R261). -/
def Status.code : Status → BitVec 8
  | .ok => 0x00
  | .empty => 0x01
  | .outOfRange => 0x02
  | .unknownSymbol => 0x03
  | .truncatedInput => 0x04
  | .emptyTree => 0x05
  | .endOfStream => 0x06
  | .illegalCommand => 0x07
  | .capacityExceeded => 0x08
  | .busy => 0x09
  | .invariantViolation => 0x0A

/-- The 64-bit response word: `status` 7:0, `fl` 15:8, `rs` 31:16, `rv` 63:32 (R93). -/
def Response.word (r : Response) : PortWord := r.rv ++ r.rs ++ r.fl ++ r.status.code

end Sys2Proof.Machine
end

