-- ==== Sys2Proof/Machine/Ops.lean ====
section
/-! DEFINITION. The named operations over the state: slots and their lock (10_state.md R21, R28), the tables indexed
by symbol (R38, R42), the packing of bits into bytes (20_memory.md R65), the two ways a command ends
(00_scope.md R13: respond and raise), and reset (70_reset_and_hazards.md R290). -/

namespace Sys2Proof.Machine

/-! ### Slots -/

/-- The logical length in bits (R21). -/
def Container.len (c : Container) : Nat := c.bits.length

/-- Slot `a`. A command names only slots below NBC (R98). -/
def State.slot (s : State) (a : SlotNo) : Container := s.slots.getD a.toNat Container.empty

/-- Replace slot `a`. -/
def State.setSlot (s : State) (a : SlotNo) (c : Container) : State :=
  { s with slots := s.slots.set a.toNat c }

/-- `locked(i)` (R28): a byte stream over slot `i` is in progress. -/
def State.locked (s : State) (a : SlotNo) : Bool :=
  match s.strm with
  | .inactive => false
  | .active i _ => i == a

/-- The words a container has once it holds `n` bits: a high-water mark, a word added only when the length needs it
(R24). -/
def growTo (w nw n : Nat) : Nat := max nw (ceilDiv n w)

/-- The container with `bs` appended (R133, R135, R123). -/
def Container.append (w : Nat) (c : Container) (bs : List Bool) : Container :=
  ⟨c.bits ++ bs, growTo w c.nw (c.len + bs.length)⟩

/-- The container with its whole content replaced by `bs`, storage kept (R215, R220). -/
def Container.replace (w : Nat) (c : Container) (bs : List Bool) : Container :=
  ⟨bs, growTo w c.nw bs.length⟩

/-! ### Bytes (20_memory.md R65, R66) -/

/-- The number whose bit `t` is element `t` of the list: first bit in the lowest position. -/
def packBits : List Bool → Nat
  | [] => 0
  | b :: bs => (if b then 1 else 0) + 2 * packBits bs

/-- Byte `k` of `pack(B)`: the up to 8 bits from index `8k` on, absent ones zero (R65, R66). -/
def streamByte (bits : List Bool) (k : Nat) : Nat := packBits ((bits.drop (8 * k)).take 8)

/-- `pack(B)`, the byte stream of a container: `ceil_div(n, 8)` bytes in ascending order (R65). -/
def packBytes (bits : List Bool) : List Nat :=
  (List.range (ceilDiv bits.length 8)).map (streamByte bits)

/-! ### Tables indexed by symbol -/

/-- The entry of a symbol, none when absent. -/
def Table.get? {β : Type} : Table β → Sym → Option β
  | [], _ => none
  | (k, v) :: t, s => if k = s then some v else Table.get? t s

/-- Make a symbol present with the given value, replacing an earlier one. -/
def Table.put {β : Type} : Table β → Sym → β → Table β
  | [], s, v => [(s, v)]
  | (k, x) :: t, s, v =>
    if s.toNat < k.toNat then (s, v) :: (k, x) :: t
    else if k = s then (s, v) :: t
    else (k, x) :: Table.put t s v

/-- The canonical form: keys strictly ascending. -/
abbrev Table.wf {β : Type} (t : Table β) : Prop := t.Pairwise fun x y => x.1.toNat < y.1.toNat

/-! ### How a command ends -/

/-- `respond(fl, rs, rv)`: status OK and the given fields (00_scope.md R13). -/
def respond (s : State) (fl : BitVec 8) (rs : Short) (rv : Long) : Answer :=
  .next { s with rsp := some ⟨.ok, fl, rs, rv⟩ }

/-- `respond()`: status OK, every field zero. -/
def respondOk (s : State) : Answer := respond s 0 0 0

/-- `raise <STATUS>`, the one way an exception is taken (60_exceptions.md R260, R262): the response has that status
and zero in every other field, and no state changes. Nothing is saved, no mode changes, control goes nowhere (R277),
and there is no return from it (R278). -/
def raise (s : State) (st : Status) : Answer :=
  .next { s with rsp := some ⟨st, 0, 0, 0⟩ }

/-! ### Reset -/

/-- The effect of a reset, whatever caused it (70_reset_and_hazards.md R290): every item of R20 at its value of R48.
The parameters do not change; the host's pending inputs and the count of draws, which are not state of HUFFCORE, stay
(log 4, log 10). -/
def State.doReset (s : State) : State :=
  { State.resetWith s.par with inputs := s.inputs, draws := s.draws }

end Sys2Proof.Machine
end

