-- ==== Sys2Proof/Machine/Bc.lean ====
section
/-! DEFINITION. The BC commands (41_bit_container.md R121 to R147). Each makes its checks in the order of its rule's
pseudocode: BUSY first, then its own (R120; 60_exceptions.md R270). -/

namespace Sys2Proof.Machine

/-- BC.NEW (R121). -/
def execBcNew (a : SlotNo) (nbits : Long) (s : State) : Answer :=
  if s.locked a then raise s .busy
  else if s.par.bcMaxBits < nbits.toNat then raise s .capacityExceeded
  else respondOk (s.setSlot a ⟨[], ceilDiv nbits.toNat s.par.w⟩)

/-- BC.PUSH (R123). -/
def execBcPush (a : SlotNo) (v : Bool) (s : State) : Answer :=
  if s.locked a then raise s .busy
  else if (s.slot a).len = s.par.bcMaxBits then raise s .capacityExceeded
  else respondOk (s.setSlot a ((s.slot a).append s.par.w [v]))

/-- BC.POP (R125). -/
def execBcPop (a : SlotNo) (s : State) : Answer :=
  if s.locked a then raise s .busy
  else
    match (s.slot a).bits.getLast? with
    | none => raise s .empty
    | some v => respond (s.setSlot a ⟨(s.slot a).bits.dropLast, (s.slot a).nw⟩) 0 0 (longOfBit v)

/-- BC.GET (R127). -/
def execBcGet (a : SlotNo) (j : Long) (s : State) : Answer :=
  match (s.slot a).bits[j.toNat]? with
  | none => raise s .outOfRange
  | some v => respond s 0 0 (longOfBit v)

/-- BC.SET (R129). -/
def execBcSet (a : SlotNo) (j : Long) (v : Bool) (s : State) : Answer :=
  if s.locked a then raise s .busy
  else if (s.slot a).len ≤ j.toNat then raise s .outOfRange
  else respondOk (s.setSlot a ⟨(s.slot a).bits.set j.toNat v, (s.slot a).nw⟩)

/-- BC.FILL (R131): every bit within the length. -/
def execBcFill (a : SlotNo) (v : Bool) (s : State) : Answer :=
  if s.locked a then raise s .busy
  else respondOk (s.setSlot a ⟨List.replicate (s.slot a).len v, (s.slot a).nw⟩)

/-- Append bits to slot `a`, the body of BC.EXTEND and BC.EXTI (R133, R135). -/
def appendTo (a : SlotNo) (bs : List Bool) (s : State) : Answer :=
  if s.locked a then raise s .busy
  else if s.par.bcMaxBits < (s.slot a).len + bs.length then raise s .capacityExceeded
  else respond (s.setSlot a ((s.slot a).append s.par.w bs)) 0 0 (longOf ((s.slot a).len + bs.length))

/-- BC.EXTEND (R133): the source is the value of slot `b` when the command arrived, also when `a = b`. -/
def execBcExtend (a b : SlotNo) (s : State) : Answer := appendTo a (s.slot b).bits s

/-- BC.EXTI (R135). -/
def execBcExti (a : SlotNo) (imm : Long) (n : Short) (s : State) : Answer :=
  appendTo a (literalBits imm n.toNat) s

/-- BC.CLEAR (R137): storage kept. -/
def execBcClear (a : SlotNo) (s : State) : Answer :=
  if s.locked a then raise s .busy
  else respondOk (s.setSlot a ⟨[], (s.slot a).nw⟩)

/-- BC.LEN (R139). -/
def execBcLen (a : SlotNo) (s : State) : Answer :=
  respond s (emptyFlag (s.slot a).len) 0 (longOf (s.slot a).len)

/-- BC.CAP (R141). -/
def execBcCap (a : SlotNo) (s : State) : Answer :=
  respond s 0 0 (longOf ((s.slot a).nw * s.par.w))

/-- BC.SOPEN (R143): a stream in progress is replaced; over an empty container the stream is exhausted at once. -/
def execBcSopen (a : SlotNo) (s : State) : Answer :=
  respond { s with strm := if (s.slot a).len = 0 then .inactive else .active a 0 } 0 0
    (longOf (ceilDiv (s.slot a).len 8))

/-- BC.SNEXT (R145): the stream retires in the command that delivers the last byte. -/
def execBcSnext (s : State) : Answer :=
  match s.strm with
  | .inactive => raise s .endOfStream
  | .active i k =>
    respond { s with strm := if (s.slot i).len ≤ 8 * (k + 1) then .inactive else .active i (k + 1) } 0
      (shortOf (streamByte (s.slot i).bits k)) 0

/-- BC.SCLOSE (R147). -/
def execBcSclose (s : State) : Answer := respondOk { s with strm := .inactive }

end Sys2Proof.Machine
end

