-- ==== Sys2Proof/Machine/Heap.lean ====
section
/-! DEFINITION. The array-backed binary heap (42_priority_queue.md R162, R163, R165, R167), once for the host-visible
queue and the private heap of HC.BUILD (43_huffman_codec.md R198). `higher` is the priority relation, `d` the draws
and `k` the number of draws taken so far. Loops are bounded by fuel that never runs out (log 9). -/

namespace Sys2Proof.Machine

/-- A choice between a left and a right candidate under a tie parameter (00_scope.md R9): `true` for the right one,
and the number of draws taken afterwards. -/
def pickRight (t : TieRule) (d : Nat → Bool) (k : Nat) : Bool × Nat :=
  match t with
  | .left => (false, k)
  | .right => (true, k)
  | .any => (d k, k + 1)

/-- `swap(i, j)`: exchange two elements whole (R160). -/
def swap {α : Type} (h : List α) (i j : Nat) : List α :=
  match h[i]?, h[j]? with
  | some x, some y => (h.set i y).set j x
  | _, _ => h

/-- `sift_up(i)` (R162): move the element above its parent, `(i − 1) div 2`, while it is strictly higher. -/
def siftUp {α : Type} (higher : α → α → Bool) : Nat → List α → Nat → List α
  | 0, h, _ => h
  | fuel + 1, h, i =>
    if i = 0 then h
    else
      match h[i]?, h[(i - 1) / 2]? with
      | some x, some y =>
        if higher x y then siftUp higher fuel (swap h i ((i - 1) / 2)) ((i - 1) / 2) else h
      | _, _ => h

/-- The child that sift_down compares with (R163), for a node with the children `y` (left) and `z` (right): the
strictly higher one, or the tie choice. `true` for the right child. -/
def pickChild {α : Type} (higher : α → α → Bool) (t : TieRule) (d : Nat → Bool) (k : Nat) (y z : α) : Bool × Nat :=
  if higher y z then (false, k)
  else if higher z y then (true, k)
  else pickRight t d k

/-- `sift_down(i)` (R163) on a heap of the list's length: swap with the chosen child `2i + 1` or `2i + 2` while that
child is strictly higher. -/
def siftDown {α : Type} (higher : α → α → Bool) (t : TieRule) (d : Nat → Bool) :
    Nat → List α → Nat → Nat → List α × Nat
  | 0, h, _, k => (h, k)
  | fuel + 1, h, i, k =>
    match h[i]?, h[2 * i + 1]?, h[2 * i + 2]? with
    | some x, some y, none =>
      if higher y x then siftDown higher t d fuel (swap h (2 * i + 1) i) (2 * i + 1) k else (h, k)
    | some x, some y, some z =>
      match pickChild higher t d k y z with
      | (false, k') =>
        if higher y x then siftDown higher t d fuel (swap h (2 * i + 1) i) (2 * i + 1) k' else (h, k')
      | (true, k') =>
        if higher z x then siftDown higher t d fuel (swap h (2 * i + 2) i) (2 * i + 2) k' else (h, k')
    | _, _, _ => (h, k)

/-- Insert an element: append, then sift up (R165). -/
def heapPush {α : Type} (higher : α → α → Bool) (h : List α) (x : α) : List α :=
  siftUp higher h.length (h ++ [x]) h.length

/-- Remove the root: swap it with the last element, shrink by one, sift down (R167). None on the empty heap. The
answer holds the element removed, the heap left and the number of draws taken. -/
def heapPop {α : Type} (higher : α → α → Bool) (t : TieRule) (d : Nat → Bool) (h : List α) (k : Nat) :
    Option (α × List α × Nat) :=
  match h with
  | [] => none
  | x :: _ =>
    let h' := (swap h 0 (h.length - 1)).dropLast
    let r := siftDown higher t d h'.length h' 0 k
    some (x, r.1, r.2)

/-- The heap-order invariant (10_state.md R34): no element is strictly higher than its parent. -/
def HeapOrdered {α : Type} (higher : α → α → Bool) (h : List α) : Prop :=
  ∀ (i : Nat) (x p : α), 1 ≤ i → h[i]? = some x → h[(i - 1) / 2]? = some p → higher x p = false

/-- `higher(x, y)` of the host-visible queue (10_state.md R36). -/
def entryHigher (inv : Bool) (x y : Entry) : Bool :=
  if inv then decide (x.key.toNat < y.key.toNat) else decide (y.key.toNat < x.key.toNat)

end Sys2Proof.Machine
end

