-- ==== Sys2Proof/Machine/Huffman.lean ====
section
/-! DEFINITION. The codec: the greedy build of the tree (43_huffman_codec.md R197 to R206), the lookup of codewords
(R220) and the walk of the tree (R225), as functions of the tables, the parameters and the draws. -/

namespace Sys2Proof.Machine

/-! ### Building the tree -/

/-- An entry of the private heap: a weight and a node handle (R198). Weights are unbounded naturals (20_memory.md
R81, R83: they always fit 47 bits). -/
structure Pending where
  w : Nat
  h : Nat
  deriving DecidableEq, Repr

/-- Ascending weight; handles take no part (R198). -/
def pendingHigher (x y : Pending) : Bool := decide (x.w < y.w)

/-- The arena under construction, the private heap, and the number of draws taken. -/
structure Forest where
  nodes : List Node
  heap : List Pending
  k : Nat
  deriving DecidableEq, Repr

/-- One leaf for each present symbol, in ascending order of symbol, pushed as it is made (R203). -/
def pushLeaves : Table Long → Forest → Forest
  | [], f => f
  | (s, w) :: t, f =>
    pushLeaves t
      { f with
        nodes := f.nodes ++ [.leaf s]
        heap := heapPush pendingHigher f.heap ⟨w.toNat, f.nodes.length⟩ }

/-- `place(p, q)` and the internal node it makes (R205): the first popped on the left, or on the right. -/
def placeChildren (first : TieRule) (d : Nat → Bool) (k p q : Nat) : Node × Nat :=
  match pickRight first d k with
  | (false, k') => (.internal p q, k')
  | (true, k') => (.internal q p, k')

/-- One pass of the merge loop (R205): pop the two lowest, make their parent, push it with the sum of the weights. -/
def mergeOnce (p : Params) (d : Nat → Bool) (f : Forest) : Option Forest :=
  match heapPop pendingHigher p.hcTie d f.heap f.k with
  | none => none
  | some (x, h1, k1) =>
    match heapPop pendingHigher p.hcTie d h1 k1 with
    | none => none
    | some (y, h2, k2) =>
      let node := placeChildren p.hcFirst d k2 x.h y.h
      some
        { nodes := f.nodes ++ [node.1]
          heap := heapPush pendingHigher h2 ⟨x.w + y.w, f.nodes.length⟩
          k := node.2 }

/-- The merge loop: while more than one entry is pending (R197, R205). -/
def mergeAll (p : Params) (d : Nat → Bool) : Nat → Forest → Forest
  | 0, f => f
  | fuel + 1, f =>
    if 1 < f.heap.length then
      match mergeOnce p d f with
      | none => f
      | some f' => mergeAll p d fuel f'
    else f

/-- The traversal (R206) with its explicit stack, last element first: at a leaf record the path, or fail if the
symbol was met before; at an internal node descend with `false` on the left, `true` on the right. None is the
failure. -/
def traverse (nodes : List Node) : Nat → List (Nat × List Bool) → Table (List Bool) → Option (Table (List Bool))
  | _, [], t => some t
  | 0, _ :: _, _ => none
  | fuel + 1, (h, path) :: stack, t =>
    match nodes[h]? with
    | none => none
    | some (.leaf s) =>
      match Table.get? t s with
      | some _ => none
      | none => traverse nodes fuel stack (Table.put t s path)
    | some (.internal l r) =>
      traverse nodes fuel ((l, path ++ [false]) :: (r, path ++ [true]) :: stack) t

/-- A codec just built: arena, codeword table, root handle, draws taken. -/
structure Built where
  nodes : List Node
  cwt : Table (List Bool)
  root : Nat
  k : Nat
  deriving DecidableEq, Repr

/-- The arena and private heap once the merge loop has ended (R197, R203, R205). -/
def buildForest (p : Params) (d : Nat → Bool) (ft : Table Long) (k : Nat) : Forest :=
  mergeAll p d ft.length (pushLeaves ft ⟨[], [], k⟩)

/-- HC.BUILD of a table with at least one present symbol (R197). None is INVARIANT_VIOLATION. -/
def buildCodec (p : Params) (d : Nat → Bool) (ft : Table Long) (k : Nat) : Option Built :=
  let f := buildForest p d ft k
  match heapPop pendingHigher p.hcTie d f.heap f.k with
  | none => none
  | some (x, _, k') =>
    match traverse f.nodes f.nodes.length [(x.h, [])] [] with
    | none => none
    | some t => some ⟨f.nodes, t, x.h, k'⟩

/-! ### Encode -/

/-- The codewords of a sequence of symbols laid end to end (R220); none when a symbol has no codeword. -/
def encodeSyms (cwt : Table (List Bool)) : List Sym → Option (List Bool)
  | [] => some []
  | s :: ss =>
    match Table.get? cwt s, encodeSyms cwt ss with
    | some cw, some out => some (cw ++ out)
    | _, _ => none

/-! ### Decode -/

/-- `NODE[h]` (R225). In a state that meets the invariants every handle the walk meets names a node; at a handle that
names none the read gives a free value (log 7). -/
def nodeAt (nodes : List Node) (h : Nat) : Node := nodes.getD h (Config.absentNode h)

/-- Where a walk from a node along the bits ends (R225): at a leaf, with the bits left over, or out of bits at an
internal node. -/
inductive WalkEnd where
  | leaf (sym : Sym) (rest : List Bool)
  | truncated
  deriving DecidableEq, Repr

/-- Descend from node `h`, one bit for each internal node, left on `false`, right on `true` (R225). -/
def walk (nodes : List Node) : List Bool → Nat → WalkEnd
  | [], h =>
    match nodeAt nodes h with
    | .leaf s => .leaf s []
    | .internal _ _ => .truncated
  | b :: bs, h =>
    match nodeAt nodes h with
    | .leaf s => .leaf s (b :: bs)
    | .internal l r => walk nodes bs (if b then r else l)

/-- How the decoding of a number of symbols ends: with the symbols and the bits left over, or for want of a bit. -/
inductive DecodeEnd where
  | symbols (out : List Sym) (rest : List Bool)
  | truncated
  deriving DecidableEq, Repr

/-- Decode `n` symbols, each from the root, the cursor shared (R225). -/
def decodeSyms (nodes : List Node) (root : Nat) : Nat → List Bool → DecodeEnd
  | 0, bits => .symbols [] bits
  | n + 1, bits =>
    match walk nodes bits root with
    | .truncated => .truncated
    | .leaf s rest =>
      match decodeSyms nodes root n rest with
      | .symbols out rest' => .symbols (s :: out) rest'
      | .truncated => .truncated

end Sys2Proof.Machine
end

