-- ==== Sys2Proof/Machine/Hc.lean ====
section
/-! DEFINITION. The HC commands (43_huffman_codec.md R191 to R225). -/

namespace Sys2Proof.Machine

/-- HC.FCLR (R191): the built codec is not affected. -/
def execHcFclr (s : State) : Answer := respondOk { s with ft := [] }

/-- HC.FPUT (R193): present, with the weight, whatever it was before. -/
def execHcFput (weight : Long) (sym : Sym) (s : State) : Answer :=
  respondOk { s with ft := Table.put s.ft sym weight }

/-- HC.FGET (R195). -/
def execHcFget (sym : Sym) (s : State) : Answer :=
  match Table.get? s.ft sym with
  | some w => respond s (flag0 true) 0 w
  | none => respond s (flag0 false) 0 0

/-- HC.BUILD (R197): the empty table builds the empty codec (R199); otherwise arena and codeword table are replaced
together, all at once. -/
def execHcBuild (s : State) : Answer :=
  if s.ft.length = 0 then respond { s with nodes := [], cwt := [] } (flag0 false) 0 0
  else
    match buildCodec s.par Config.draw s.ft s.draws with
    | none => raise s .invariantViolation
    | some c =>
      respond { s with nodes := c.nodes, cwt := c.cwt, draws := c.k } (flag0 true) (shortOf c.root)
        (longOf s.ft.length)

/-- HC.STAT (R211). -/
def execHcStat (s : State) : Answer :=
  if s.nodes.length = 0 then respond s (flag0 false) 0 0
  else respond s (flag0 true) (shortOf (s.nodes.length - 1)) (longOf s.nodes.length)

/-- HC.NODE (R213). -/
def execHcNode (h : Long) (s : State) : Answer :=
  match s.nodes[h.toNat]? with
  | none => raise s .outOfRange
  | some (.leaf sym) => respond s (flag0 false) sym 0
  | some (.internal l r) => respond s (flag0 true) 0 (longOfChildren l r)

/-- Replace the whole content of slot `a`, storage kept: the end of HC.CWGET and HC.ENCODE (R215, R220). -/
def storeInto (a : SlotNo) (bs : List Bool) (s : State) : Answer :=
  if s.par.bcMaxBits < bs.length then raise s .capacityExceeded
  else respond (s.setSlot a ((s.slot a).replace s.par.w bs)) 0 0 (longOf bs.length)

/-- HC.CWGET (R215). -/
def execHcCwget (a : SlotNo) (sym : Sym) (s : State) : Answer :=
  if s.locked a then raise s .busy
  else
    match Table.get? s.cwt sym with
    | none => raise s .unknownSymbol
    | some cw => storeInto a cw s

/-- HC.ENCODE (R220). -/
def execHcEncode (a : SlotNo) (s : State) : Answer :=
  if s.locked a then raise s .busy
  else
    match encodeSyms s.cwt s.sb with
    | none => raise s .unknownSymbol
    | some out => storeInto a out s

/-- HC.DECODE (R225): `rv` is the number of bits consumed. -/
def execHcDecode (b : SlotNo) (count : Long) (s : State) : Answer :=
  if count.toNat = 0 then respond { s with sb := [] } 0 0 0
  else if s.nodes.length = 0 then raise s .emptyTree
  else if s.par.sbCap < count.toNat then raise s .capacityExceeded
  else
    match decodeSyms s.nodes (s.nodes.length - 1) count.toNat (s.slot b).bits with
    | .truncated => raise s .truncatedInput
    | .symbols out rest => respond { s with sb := out } 0 0 (longOf ((s.slot b).len - rest.length))

end Sys2Proof.Machine
end

