-- ==== Sys2Proof/Machine/Pq.lean ====
section
/-! DEFINITION. The PQ commands (42_priority_queue.md R161 to R171). -/

namespace Sys2Proof.Machine

/-- PQ.CFG (R161): only while the queue is empty. -/
def execPqCfg (v : Bool) (s : State) : Answer :=
  if s.pqh.length ≠ 0 then raise s .busy
  else respondOk { s with pqInv := v }

/-- PQ.PUSH (R165). -/
def execPqPush (key : Long) (val : Short) (s : State) : Answer :=
  if s.pqh.length = s.par.pqCap then raise s .capacityExceeded
  else respondOk { s with pqh := heapPush (entryHigher s.pqInv) s.pqh ⟨key, val⟩ }

/-- PQ.POP (R167). -/
def execPqPop (s : State) : Answer :=
  match heapPop (entryHigher s.pqInv) s.par.pqTie Config.draw s.pqh s.draws with
  | none => raise s .empty
  | some (r, h, k) => respond { s with pqh := h, draws := k } 0 r.val r.key

/-- PQ.PEEK (R169). -/
def execPqPeek (s : State) : Answer :=
  match s.pqh[0]? with
  | none => raise s .empty
  | some r => respond s 0 r.val r.key

/-- PQ.LEN (R171). -/
def execPqLen (s : State) : Answer :=
  respond s (pqLenFlags s.pqh.length s.pqInv) 0 (longOf s.pqh.length)

end Sys2Proof.Machine
end

