-- ==== Sys2Proof/Machine/Sb.lean ====
section
/-! DEFINITION. The SB commands (44_symbol_buffer_system.md R241 to R244). -/

namespace Sys2Proof.Machine

/-- SB.CLR (R241). -/
def execSbClr (s : State) : Answer := respondOk { s with sb := [] }

/-- SB.PUSH (R242). -/
def execSbPush (sym : Sym) (s : State) : Answer :=
  if s.sb.length = s.par.sbCap then raise s .capacityExceeded
  else respondOk { s with sb := s.sb ++ [sym] }

/-- SB.GET (R243). -/
def execSbGet (idx : Long) (s : State) : Answer :=
  match s.sb[idx.toNat]? with
  | none => raise s .outOfRange
  | some sym => respond s 0 sym 0

/-- SB.LEN (R244). -/
def execSbLen (s : State) : Answer :=
  respond s (emptyFlag s.sb.length) 0 (longOf s.sb.length)

end Sys2Proof.Machine
end

