-- ==== Sys2Proof/Machine/Sys.lean ====
section
/-! DEFINITION. The SYS commands (44_symbol_buffer_system.md R245 to R247). -/

namespace Sys2Proof.Machine

/-- SYS.NOP (R245). -/
def execSysNop (s : State) : Answer := respondOk s

/-- SYS.RESET (R246). -/
def execSysReset (s : State) : Answer := respondOk s.doReset

/-- The parameters SYS.INFO reads, by number (R247). -/
def infoValues (p : Params) : List Nat := [p.w, p.nbc, p.bcMaxBits, p.pqCap, p.symw, p.sbCap]

/-- SYS.INFO (R247). -/
def execSysInfo (k : Long) (s : State) : Answer :=
  match (infoValues s.par)[k.toNat]? with
  | none => raise s .outOfRange
  | some v => respond s 0 0 (longOf v)

end Sys2Proof.Machine
end

