-- ==== Sys2Proof/Machine/Dispatch.lean ====
section
/-! DEFINITION. One arm for each command: its meaning. -/

namespace Sys2Proof.Machine

/-- The meaning of a command. -/
def exec (i : Instr) (s : State) : Host.Outcome State Fault Refusal :=
  match i with
  | .sysNop => Sys2Proof.Machine.execSysNop s
  | .sysReset => Sys2Proof.Machine.execSysReset s
  | .sysInfo k => Sys2Proof.Machine.execSysInfo k s
  | .bcNew a nbits => Sys2Proof.Machine.execBcNew a nbits s
  | .bcPush a v => Sys2Proof.Machine.execBcPush a v s
  | .bcPop a => Sys2Proof.Machine.execBcPop a s
  | .bcGet a j => Sys2Proof.Machine.execBcGet a j s
  | .bcSet a j v => Sys2Proof.Machine.execBcSet a j v s
  | .bcFill a v => Sys2Proof.Machine.execBcFill a v s
  | .bcExtend a b => Sys2Proof.Machine.execBcExtend a b s
  | .bcExti a imm n => Sys2Proof.Machine.execBcExti a imm n s
  | .bcClear a => Sys2Proof.Machine.execBcClear a s
  | .bcLen a => Sys2Proof.Machine.execBcLen a s
  | .bcCap a => Sys2Proof.Machine.execBcCap a s
  | .bcSopen a => Sys2Proof.Machine.execBcSopen a s
  | .bcSnext => Sys2Proof.Machine.execBcSnext s
  | .bcSclose => Sys2Proof.Machine.execBcSclose s
  | .pqCfg v => Sys2Proof.Machine.execPqCfg v s
  | .pqPush key val => Sys2Proof.Machine.execPqPush key val s
  | .pqPop => Sys2Proof.Machine.execPqPop s
  | .pqPeek => Sys2Proof.Machine.execPqPeek s
  | .pqLen => Sys2Proof.Machine.execPqLen s
  | .hcFclr => Sys2Proof.Machine.execHcFclr s
  | .hcFput weight sym => Sys2Proof.Machine.execHcFput weight sym s
  | .hcFget sym => Sys2Proof.Machine.execHcFget sym s
  | .hcBuild => Sys2Proof.Machine.execHcBuild s
  | .hcStat => Sys2Proof.Machine.execHcStat s
  | .hcNode h => Sys2Proof.Machine.execHcNode h s
  | .hcCwget a sym => Sys2Proof.Machine.execHcCwget a sym s
  | .hcEncode a => Sys2Proof.Machine.execHcEncode a s
  | .hcDecode b count => Sys2Proof.Machine.execHcDecode b count s
  | .sbClr => Sys2Proof.Machine.execSbClr s
  | .sbPush sym => Sys2Proof.Machine.execSbPush sym s
  | .sbGet idx => Sys2Proof.Machine.execSbGet idx s
  | .sbLen => Sys2Proof.Machine.execSbLen s

end Sys2Proof.Machine
end

