-- ==== Sys2Proof/Machine/Step.lean ====
section
/-! DEFINITION. One step of the machine: the whole of one command (00_scope.md R6), or a reset signal. -/

namespace Sys2Proof.Machine

/-- Perform the command word `w` (30_encoding.md R101): an ill-formed word is answered ILLEGAL_COMMAND and changes no
state (R96, R97), a well-formed one has its command's meaning. -/
def perform (w : PortWord) (s : State) : Answer :=
  match decode s.par w with
  | .error _ => raise s .illegalCommand
  | .ok i => exec i s

/-- One step: take the oldest input and perform it completely (R6, R7). With nothing presented nothing happens: nothing
inside HUFFCORE acts on its own (R7). The platform reset signal has the effect of a reset and gives no response
(70_reset_and_hazards.md R290; log 10). -/
def step (s : State) : Host.Outcome State Fault Refusal :=
  match s.inputs with
  | [] => .next s
  | .command w :: rest => perform w { s with inputs := rest }
  | .resetSignal :: rest => .next { s with inputs := rest }.doReset

/-- `s` with an instruction, given as a number, presented at the command port, so that the very next step performs
it (log 2). -/
def State.withFetchWord (s : State) (nbits w : Nat) : State :=
  { s with inputs := .command (BitVec.ofNat 64 (w % 2 ^ nbits)) :: s.inputs }

end Sys2Proof.Machine
end

