-- ==== Sys2Proof/Machine/Assembly.lean ====
section
/-! DEFINITION. The assembly syntax (30_encoding.md R102) and the pseudo-commands (R103). No command's meaning uses
this file. -/

namespace Sys2Proof.Machine

/-- A slot is written `c0` to `c15` (R102). -/
def asmSlot (a : SlotNo) : String := "c" ++ toString a.toNat

/-- A number, in decimal (R102). -/
def asmNum (n : Nat) : String := toString n

/-- A bit operand as a number (R102). -/
def asmBit (v : Bool) : String := if v then "1" else "0"

/-- A line: the mnemonic, a space, the operands separated by commas (R102). -/
def asmLine (mnemonic : String) : List String → String
  | [] => mnemonic
  | os => mnemonic ++ " " ++ String.intercalate ", " os

/-- The assembly of a command: the operands in the order `a` slot, `b` slot, `imm`, `s` (R102). -/
def asm : Instr → String
  | .sysNop => asmLine "SYS.NOP" []
  | .sysReset => asmLine "SYS.RESET" []
  | .sysInfo k => asmLine "SYS.INFO" [asmNum k.toNat]
  | .bcNew a nbits => asmLine "BC.NEW" [asmSlot a, asmNum nbits.toNat]
  | .bcPush a v => asmLine "BC.PUSH" [asmSlot a, asmBit v]
  | .bcPop a => asmLine "BC.POP" [asmSlot a]
  | .bcGet a j => asmLine "BC.GET" [asmSlot a, asmNum j.toNat]
  | .bcSet a j v => asmLine "BC.SET" [asmSlot a, asmNum j.toNat, asmBit v]
  | .bcFill a v => asmLine "BC.FILL" [asmSlot a, asmBit v]
  | .bcExtend a b => asmLine "BC.EXTEND" [asmSlot a, asmSlot b]
  | .bcExti a imm n => asmLine "BC.EXTI" [asmSlot a, asmNum imm.toNat, asmNum n.toNat]
  | .bcClear a => asmLine "BC.CLEAR" [asmSlot a]
  | .bcLen a => asmLine "BC.LEN" [asmSlot a]
  | .bcCap a => asmLine "BC.CAP" [asmSlot a]
  | .bcSopen a => asmLine "BC.SOPEN" [asmSlot a]
  | .bcSnext => asmLine "BC.SNEXT" []
  | .bcSclose => asmLine "BC.SCLOSE" []
  | .pqCfg v => asmLine "PQ.CFG" [asmBit v]
  | .pqPush key val => asmLine "PQ.PUSH" [asmNum key.toNat, asmNum val.toNat]
  | .pqPop => asmLine "PQ.POP" []
  | .pqPeek => asmLine "PQ.PEEK" []
  | .pqLen => asmLine "PQ.LEN" []
  | .hcFclr => asmLine "HC.FCLR" []
  | .hcFput weight sym => asmLine "HC.FPUT" [asmNum weight.toNat, asmNum sym.toNat]
  | .hcFget sym => asmLine "HC.FGET" [asmNum sym.toNat]
  | .hcBuild => asmLine "HC.BUILD" []
  | .hcStat => asmLine "HC.STAT" []
  | .hcNode h => asmLine "HC.NODE" [asmNum h.toNat]
  | .hcCwget a sym => asmLine "HC.CWGET" [asmSlot a, asmNum sym.toNat]
  | .hcEncode a => asmLine "HC.ENCODE" [asmSlot a]
  | .hcDecode b count => asmLine "HC.DECODE" [asmSlot b, asmNum count.toNat]
  | .sbClr => asmLine "SB.CLR" []
  | .sbPush sym => asmLine "SB.PUSH" [asmNum sym.toNat]
  | .sbGet idx => asmLine "SB.GET" [asmNum idx.toNat]
  | .sbLen => asmLine "SB.LEN" []

/-- The pseudo-commands, complete (R103). -/
inductive Pseudo where
  | pqPopmax
  | pqPopmin
  | pqIsempty
  | bcIsempty (a : SlotNo)
  | bcBits (a : SlotNo) (bits : List Bool)
  | sbStr (syms : List Sym)
  | hcFreq (weight : Long) (sym : Sym)
  deriving DecidableEq, Repr

/-- A literal bit string cut into runs of 32 from the left, each one BC.EXTI whose literal bit `t` is
the run's character `t` (R103). `fuel` bounds the runs. -/
def bitRuns (a : SlotNo) : Nat → List Bool → List Instr
  | 0, _ => []
  | _ + 1, [] => []
  | fuel + 1, b :: bs =>
    .bcExti a (BitVec.ofNat 32 (packBits ((b :: bs).take 32))) (BitVec.ofNat 16 ((b :: bs).take 32).length) ::
      bitRuns a fuel ((b :: bs).drop 32)

/-- The real commands a pseudo-command expands to (R103). -/
def Pseudo.expand : Pseudo → List Instr
  | .pqPopmax => [.pqPop]
  | .pqPopmin => [.pqPop]
  | .pqIsempty => [.pqLen]
  | .bcIsempty a => [.bcLen a]
  | .bcBits a bits => bitRuns a bits.length bits
  | .sbStr syms => syms.map fun x => .sbPush x
  | .hcFreq weight sym => [.hcFput weight sym]

end Sys2Proof.Machine
end

