-- ==== Sys2Proof/Machine/BitStore.lean ====
section
/-! DEFINITION. The word level of a container (20_memory.md R60 to R67): bits packed into W-bit words, the bit and
word operations on them, and when a store of words backs the container value that State holds. A store's bits
beyond the length are left open: "The bits of the allocated words at positions j ≥ BC[i].len have no defined value"
(10_state.md R23). -/

namespace Sys2Proof.Machine

/-- The words `BS[i]` of one container, each a number below 2^W (R60). -/
abbrev Store := List Nat

/-- `MemRead(BS[i], q, W)` (00_scope.md R13). -/
def memReadWord (ws : Store) (q : Nat) : Nat := ws.getD q 0

/-- `MemWrite(BS[i], q, W, v)` (00_scope.md R13). -/
def memWriteWord (ws : Store) (q v : Nat) : Store := ws.set q v

/-- `BitRead` (R62): `(w >> (j mod W)) & 1` of the word `j div W` (R61). -/
def bitRead (w : Nat) (ws : Store) (j : Nat) : Nat := (memReadWord ws (j / w) >>> (j % w)) &&& 1

/-- `BitWrite` (R63): `w' = (w & ~m) | (v << (j mod W))` with `m = 1 << (j mod W)`. -/
def bitWrite (w : Nat) (ws : Store) (j : Nat) (v : Bool) : Store :=
  memWriteWord ws (j / w)
    ((memReadWord ws (j / w) &&& ((2 ^ w - 1) ^^^ (1 <<< (j % w)))) ||| ((if v then 1 else 0) <<< (j % w)))

/-- Write a run of bits from position `j` on, one after the other (R133, R135, R215, R220). -/
def bitWrites (w : Nat) : Store → Nat → List Bool → Store
  | ws, _, [] => ws
  | ws, j, v :: vs => bitWrites w (bitWrite w ws j v) (j + 1) vs

/-- The word loop of BC.FILL (R131): write the pattern into the first `n` words. -/
def fillWords (w : Nat) (ws : Store) (v : Bool) : Nat → Store
  | 0 => ws
  | n + 1 => memWriteWord (fillWords w ws v n) n (if v then 2 ^ w - 1 else 0)

/-- A stream byte taken from the words (R66, R67): the aligned 8-bit field, masked to the bits inside the length. -/
def storeByte (w : Nat) (ws : Store) (len k : Nat) : Nat :=
  ((memReadWord ws (8 * k / w) >>> (8 * k % w)) &&& 255) &&& (2 ^ min 8 (len - 8 * k) - 1)

/-- A store of words backs a container: it has `nw` words of W bits, room for the length, and the container's bits at
their places (R21, R22, R61, R62). The other bits are whatever they are (R23). -/
structure Backs (w : Nat) (ws : Store) (c : Container) : Prop where
  words : ws.length = c.nw
  width : ∀ x ∈ ws, x < 2 ^ w
  room : c.len ≤ c.nw * w
  bits : ∀ (j : Nat) (b : Bool), c.bits[j]? = some b → bitRead w ws j = if b then 1 else 0

end Sys2Proof.Machine
end

