-- ==== Sys2Proof/Safety.lean ====
section
/-! DEFINITION. What the spec says of every state (the invariants of 10_state.md R21, R22, R27, R33, R34, R38 to R42,
R44) and of what a command leaves alone. -/

namespace Sys2Proof.Machine

/-! ### The codec -/

/-- The handles that internal nodes name as children, in arena order. -/
def childHandles (nodes : List Node) : List Nat :=
  nodes.flatMap fun
    | .leaf _ => []
    | .internal l r => [l, r]

/-- The node reached from node `h` along a path, left on 0, right on 1 (R41); none when the path leaves the tree. -/
def follow (nodes : List Node) : Nat → List Bool → Option Node
  | h, [] => nodes[h]?
  | h, b :: bs =>
    match nodes[h]? with
    | some (.internal l r) => follow nodes (if b then r else l) bs
    | some (.leaf _) => none
    | none => none

/-- A built codec of `m` symbols (R39 to R42): `2m − 1` nodes; handles below `m` are the leaves in ascending order of
symbol, the others internal nodes with smaller child handles; every handle but the root `2m − 2` is a child exactly
once; the codeword table holds exactly the root-to-leaf paths. -/
structure CodecBuilt (nsym m : Nat) (nodes : List Node) (cwt : Table (List Bool)) : Prop where
  some_symbol : 1 ≤ m
  symbols_le : m ≤ nsym
  size : nodes.length = 2 * m - 1
  leaves : ∀ h : Nat, h < m → ∃ s, nodes[h]? = some (.leaf s) ∧ s.toNat < nsym
  ascending : ∀ (g h : Nat) (s t : Sym), g < h → nodes[g]? = some (.leaf s) → nodes[h]? = some (.leaf t) →
    s.toNat < t.toNat
  internals : ∀ h : Nat, m ≤ h → h < 2 * m - 1 → ∃ l r, nodes[h]? = some (.internal l r) ∧ l < h ∧ r < h
  children : ((2 * m - 2) :: childHandles nodes).Perm (List.range (2 * m - 1))
  codeword : ∀ (s : Sym) (cw : List Bool),
    Table.get? cwt s = some cw ↔ follow nodes (2 * m - 2) cw = some (.leaf s)
  present : ∀ s : Sym, (Table.get? cwt s).isSome = true ↔ ∃ h : Nat, nodes[h]? = some (Node.leaf s)
  canonical : Table.wf cwt

/-- The codec of a state: the empty one (R42: "When HC.nn = 0 no entry is present"), or a built one. -/
def CodecOk (nsym : Nat) (nodes : List Node) (cwt : Table (List Bool)) : Prop :=
  (nodes = [] ∧ cwt = []) ∨ ∃ m, CodecBuilt nsym m nodes cwt

/-! ### The state -/

/-- A table indexed by symbol: canonical, its symbols below NSYM (R38). -/
structure TableOk {β : Type} (nsym : Nat) (t : Table β) : Prop where
  canonical : Table.wf t
  symbols : ∀ x ∈ t, x.1.toNat < nsym

/-- A slot: `len ≤ nw · W ≤ BC_MAXBITS` (R22). -/
structure SlotOk (p : Params) (c : Container) : Prop where
  room : c.len ≤ c.nw * p.w
  bound : c.nw * p.w ≤ p.bcMaxBits

/-- The stream register: while a run is active its slot exists and its next byte has a bit inside the length (R27). -/
def StreamOk (s : State) : Prop :=
  match s.strm with
  | .inactive => True
  | .active i k => i.toNat < s.par.nbc ∧ 8 * k < (s.slot i).len

/-- The invariants of the state, after reset and after every step. -/
structure Inv (s : State) : Prop where
  params : s.par.Valid
  slots_count : s.slots.length = s.par.nbc
  slots_ok : ∀ c ∈ s.slots, SlotOk s.par c
  stream : StreamOk s
  queue_cap : s.pqh.length ≤ s.par.pqCap
  queue_order : HeapOrdered (entryHigher s.pqInv) s.pqh
  freqs : TableOk s.par.nsym s.ft
  codec : CodecOk s.par.nsym s.nodes s.cwt
  buffer_cap : s.sb.length ≤ s.par.sbCap
  buffer_syms : ∀ x ∈ s.sb, x.toNat < s.par.nsym

/-! ### Frames -/

/-- The slot exists: a command may name it (30_encoding.md R98). -/
abbrev State.hasSlot (s : State) (a : SlotNo) : Prop := a.toNat < s.slots.length

/-- Every slot but `a` is as it was, and no slot came or went. -/
def OtherSlotsKept (a : SlotNo) (s t : State) : Prop :=
  t.slots.length = s.slots.length ∧ ∀ b : SlotNo, b ≠ a → t.slot b = s.slot b

/-- Nothing but the response differs. -/
def OnlyResponseChanged (s t : State) : Prop := t = { s with rsp := t.rsp }

/-- Nothing but slot `a` and the response differs. -/
structure OnlySlotChanged (a : SlotNo) (s t : State) : Prop where
  slots : OtherSlotsKept a s t
  rest : t = { s with slots := t.slots, rsp := t.rsp }

/-- Nothing but the stream register and the response differs. -/
def OnlyStreamChanged (s t : State) : Prop := t = { s with strm := t.strm, rsp := t.rsp }

/-- Nothing but the heap array, the count of draws and the response differs. -/
def OnlyHeapChanged (s t : State) : Prop := t = { s with pqh := t.pqh, draws := t.draws, rsp := t.rsp }

/-- Nothing but the frequency table and the response differs. -/
def OnlyFreqsChanged (s t : State) : Prop := t = { s with ft := t.ft, rsp := t.rsp }

/-- Nothing but the codec, the count of draws and the response differs. -/
def OnlyCodecChanged (s t : State) : Prop :=
  t = { s with nodes := t.nodes, cwt := t.cwt, draws := t.draws, rsp := t.rsp }

/-- Nothing but the symbol buffer and the response differs. -/
def OnlyBufferChanged (s t : State) : Prop := t = { s with sb := t.sb, rsp := t.rsp }

/-- The command ends with the error `st` (60_exceptions.md R262): a next state that differs only in the response, whose
status is `st` and whose other fields are zero. -/
def EndsWith (st : Status) (s : State) (x : Host.Outcome State Fault Refusal) : Prop :=
  x = .next { s with rsp := some ⟨st, 0, 0, 0⟩ }

/-- The last response is OK with the given fields. -/
def State.answeredOk (t : State) (fl : BitVec 8) (rs : Short) (rv : Long) : Prop := t.rsp = some ⟨.ok, fl, rs, rv⟩

/-! ### The slot a command writes, and the host's loops -/

/-- The slot a command writes (10_state.md R25, the list "Write BC[a]"). -/
def slotWritten : Instr → Option SlotNo
  | .bcNew a _ => some a
  | .bcPush a _ => some a
  | .bcPop a => some a
  | .bcSet a _ _ => some a
  | .bcFill a _ => some a
  | .bcExtend a _ => some a
  | .bcExti a _ _ => some a
  | .bcClear a => some a
  | .hcCwget a _ => some a
  | .hcEncode a => some a
  | .sysNop => none
  | .sysReset => none
  | .sysInfo _ => none
  | .bcGet _ _ => none
  | .bcLen _ => none
  | .bcCap _ => none
  | .bcSopen _ => none
  | .bcSnext => none
  | .bcSclose => none
  | .pqCfg _ => none
  | .pqPush _ _ => none
  | .pqPop => none
  | .pqPeek => none
  | .pqLen => none
  | .hcFclr => none
  | .hcFput _ _ => none
  | .hcFget _ => none
  | .hcBuild => none
  | .hcStat => none
  | .hcNode _ => none
  | .hcDecode _ _ => none
  | .sbClr => none
  | .sbPush _ => none
  | .sbGet _ => none
  | .sbLen => none

/-- The host issues a command `n` times, taking the response of each (30_encoding.md R103, the host idioms); none as
soon as a response is not OK. -/
def issueTimes (i : Instr) : Nat → State → Option (List Response × State)
  | 0, s => some ([], s)
  | n + 1, s =>
    match exec i s with
    | .next t =>
      match t.rsp with
      | some r => if r.status = .ok then (issueTimes i n t).map fun x => (r :: x.1, x.2) else none
      | none => none
    | .fault _ => none
    | .refused _ => none

end Sys2Proof.Machine
end

