-- ==== Sys2Proof/Certificates/Slice0/Obligations.lean ====
section
/-! DEFINITION. The statements for the provers. Each docstring names the rules of spec/ it formalises. -/

open Sys2Proof Sys2Proof.Machine

/-! ### Command words and response words -/

/-- R91, R92, R95, R97 to R101: under every parameter record, a well-formed command is what its word decodes to, with
every operand kept. -/
def Obligations.DecodeOfEncodeIsTheCommand : Prop :=
  ∀ (p : Params) (i : Instr), i.wf p = true → decode p (encode i) = .ok i

/-- R97, R101: a command word has one spelling: a word that decodes is the word of the command it decodes to, and that
command is well formed. -/
def Obligations.EncodeOfDecodeIsTheWord : Prop :=
  ∀ (p : Params) (w : PortWord) (i : Instr), decode p w = .ok i → encode i = w ∧ i.wf p = true

/-- R91, R95: words written out from the opcode map decode to the commands they stand for, one or more of each unit. -/
def Obligations.WordsFromTheOpcodeMapDecode : Prop :=
  decode Params.default 0x0000000400000002#64 = .ok (.sysInfo 4) ∧
  decode Params.default 0x0000006400000310#64 = .ok (.bcNew 3 100) ∧
  decode Params.default 0x0000001100010214#64 = .ok (.bcSet 2 17 true) ∧
  decode Params.default 0x0000000000003016#64 = .ok (.bcExtend 0 3) ∧
  decode Params.default 0x0000000500030017#64 = .ok (.bcExti 0 5 3) ∧
  decode Params.default 0x0000002800070021#64 = .ok (.pqPush 40 7) ∧
  decode Params.default 0x0000000500410031#64 = .ok (.hcFput 5 65) ∧
  decode Params.default 0x0000000600001038#64 = .ok (.hcDecode 1 6) ∧
  decode Params.default 0x0000000000410041#64 = .ok (.sbPush 65)

/-- R91, R93: a command word is the number `op | a << 8 | b << 12 | s << 16 | imm << 32` of its fields, and a response
word the number `status | fl << 8 | rs << 16 | rv << 32`. -/
def Obligations.PortWordsAsNumbers : Prop :=
  (∀ i : Instr, encode i = i.fields.op.setWidth 64 ||| i.fields.a.setWidth 64 <<< 8 |||
    i.fields.b.setWidth 64 <<< 12 ||| i.fields.s.setWidth 64 <<< 16 ||| i.fields.imm.setWidth 64 <<< 32) ∧
  (∀ r : Response, r.word = r.status.code.setWidth 64 ||| r.fl.setWidth 64 <<< 8 ||| r.rs.setWidth 64 <<< 16 |||
    r.rv.setWidth 64 <<< 32)

/-- R96: a word whose opcode is reserved is answered ILLEGAL_COMMAND, and nothing changes but the response (and that
the word has been taken). -/
def Obligations.ReservedOpcodesAreRefused : Prop :=
  ∀ (s : State) (w : PortWord) (rest : List Input), s.inputs = .command w :: rest →
    (0x03 ≤ w.toNat % 256 ∧ w.toNat % 256 ≤ 0x0F ∨ w.toNat % 256 = 0x1E ∨ w.toNat % 256 = 0x1F ∨
      0x25 ≤ w.toNat % 256 ∧ w.toNat % 256 ≤ 0x2F ∨ 0x39 ≤ w.toNat % 256 ∧ w.toNat % 256 ≤ 0x3F ∨
      0x44 ≤ w.toNat % 256) →
    EndsWith .illegalCommand { s with inputs := rest } (step s)

/-- R96 to R101: a word that spells no well-formed command (reserved opcode, an unused field not zero, a slot not below
NBC, a symbol not below NSYM, a bad BC.EXTI literal) is answered ILLEGAL_COMMAND and changes no state. -/
def Obligations.WordsOfNoCommandAreRefused : Prop :=
  ∀ (s : State) (w : PortWord) (rest : List Input), s.inputs = .command w :: rest →
    (∀ i : Instr, i.wf s.par = true → encode i ≠ w) →
    EndsWith .illegalCommand { s with inputs := rest } (step s)

/-! ### The step and the whole machine -/

/-- R101, R75: when the oldest input is the word of a well-formed command, the step is that command's meaning on the
state with the word taken. -/
def Obligations.StepRunsTheDecodedCommand : Prop :=
  ∀ (s : State) (w : PortWord) (rest : List Input) (i : Instr), s.inputs = .command w :: rest →
    decode s.par w = .ok i → i.wf s.par = true ∧ step s = exec i { s with inputs := rest }

/-- R7, R290 with the model's choices of log 2 and log 10: with nothing presented nothing changes; the platform reset
signal leaves every item of state at its reset value, and no response. -/
def Obligations.StepWithoutACommand : Prop :=
  (∀ s : State, s.inputs = [] → step s = .next s) ∧
  (∀ (s : State) (rest : List Input), s.inputs = .resetSignal :: rest →
    step s = .next { State.resetWith s.par with inputs := rest, draws := s.draws })

/-- R22, R27, R34, R38 to R42, R44: every step from a state that meets the invariants gives a state that meets them. -/
def Obligations.EveryStepKeepsTheInvariants : Prop :=
  ∀ s t : State, Inv s → step s = .next t → Inv t

/-- R48: the reset state of every valid parameter record, the default one among them, meets the invariants. -/
def Obligations.ResetMeetsTheInvariants : Prop :=
  (∀ p : Params, p.Valid → Inv (State.resetWith p)) ∧ Inv State.reset

/-- R260, R279: the step is total, with no fault and no refusal in any state; every command word in every state, also
in states no run reaches, yields a next state with one response. R279 is the spec's own inference. -/
def Obligations.EveryCommandWordIsAnswered : Prop :=
  (∀ s : State, ∃ t, step s = .next t) ∧
  ∀ (s : State) (w : PortWord) (rest : List Input), s.inputs = .command w :: rest →
    ∃ t r, step s = .next t ∧ t.rsp = some r ∧ t.inputs = rest ∧ t.par = s.par

/-- R262: a command whose status is not OK changes no state at all, and its response word equals the status code. -/
def Obligations.ErrorsChangeNothing : Prop :=
  ∀ (i : Instr) (s t : State) (r : Response), exec i s = .next t → t.rsp = some r → r.status ≠ .ok →
    OnlyResponseChanged s t ∧ r.word = r.status.code.setWidth 64

/-- R284, which the spec marks as its own inference from 43 R203, R205 and R206: INVARIANT_VIOLATION is never
answered. -/
def Obligations.InvariantViolationIsUnreachable : Prop :=
  ∀ (i : Instr) (s t : State) (r : Response), TableOk s.par.nsym s.ft → exec i s = .next t → t.rsp = some r →
    r.status ≠ .invariantViolation

/-- R28: a slot is locked exactly while a stream over it is in progress; while it is, every command that would write it
is answered BUSY and changes nothing, and a command that only reads it is not answered BUSY. -/
def Obligations.LockedSlotRefusesItsWriters : Prop :=
  (∀ (s : State) (a : SlotNo), s.locked a = true ↔ ∃ k, s.strm = .active a k) ∧
  (∀ (i : Instr) (a : SlotNo) (s : State), slotWritten i = some a → s.locked a = true → EndsWith .busy s (exec i s)) ∧
  (∀ (i : Instr) (a : SlotNo) (s t : State) (r : Response), s.locked a = true →
    ((∃ j, i = .bcGet a j) ∨ i = .bcLen a ∨ i = .bcCap a ∨ i = .bcSopen a ∨ i = .bcSnext ∨
      (∃ c, c ≠ a ∧ i = .bcExtend c a) ∨ (∃ n, i = .hcDecode a n)) →
    exec i s = .next t → t.rsp = some r → r.status ≠ .busy)

/-- R25, R27, R32, R38, R39, R42, R44, R160: each unit's state is written only by the commands listed for it, and by
reset. -/
def Obligations.EachUnitIsWrittenOnlyByItsCommands : Prop :=
  ∀ (i : Instr) (s t : State), exec i s = .next t → i ≠ .sysReset →
    (∀ a, slotWritten i ≠ some a → t.slot a = s.slot a) ∧
    ((∀ a, i ≠ .bcSopen a) → i ≠ .bcSnext → i ≠ .bcSclose → t.strm = s.strm) ∧
    ((∀ v, i ≠ .pqCfg v) → t.pqInv = s.pqInv) ∧
    ((∀ k v, i ≠ .pqPush k v) → i ≠ .pqPop → t.pqh = s.pqh) ∧
    (i ≠ .hcFclr → (∀ w x, i ≠ .hcFput w x) → t.ft = s.ft) ∧
    (i ≠ .hcBuild → t.nodes = s.nodes ∧ t.cwt = s.cwt) ∧
    (i ≠ .sbClr → (∀ x, i ≠ .sbPush x) → (∀ b n, i ≠ .hcDecode b n) → t.sb = s.sb)

/-- R72: the commands that only read leave the state as it was and answer the same when issued again. -/
def Obligations.ReadingCommandsAreIdempotent : Prop :=
  ∀ (i : Instr) (s t : State),
    (i = .sysNop ∨ (∃ k, i = .sysInfo k) ∨ (∃ a j, i = .bcGet a j) ∨ (∃ a, i = .bcLen a) ∨ (∃ a, i = .bcCap a) ∨
      i = .pqPeek ∨ i = .pqLen ∨ (∃ x, i = .hcFget x) ∨ i = .hcStat ∨ (∃ h, i = .hcNode h) ∨ (∃ j, i = .sbGet j) ∨
      i = .sbLen) →
    exec i s = .next t → OnlyResponseChanged s t ∧ exec i t = .next t

/-- R9, R47, R246: no step changes the parameters, and a command leaves the host's pending inputs alone. -/
def Obligations.ParametersAndInputsAreTheHosts : Prop :=
  (∀ s t : State, step s = .next t → t.par = s.par) ∧
  (∀ (i : Instr) (s t : State), exec i s = .next t → t.inputs = s.inputs)

/-- R81, R93: in a state that meets the invariants every length, capacity and count fits its 32-bit result field, so
the field holds the number itself; a node handle fits 16 bits. -/
def Obligations.LengthsFitTheirFields : Prop :=
  ∀ s : State, Inv s →
    (∀ a : SlotNo, s.hasSlot a → (longOf (s.slot a).len).toNat = (s.slot a).len ∧
      (longOf ((s.slot a).nw * s.par.w)).toNat = (s.slot a).nw * s.par.w) ∧
    (longOf s.pqh.length).toNat = s.pqh.length ∧ (longOf s.sb.length).toNat = s.sb.length ∧
    (longOf s.nodes.length).toNat = s.nodes.length ∧ (shortOf (s.nodes.length - 1)).toNat = s.nodes.length - 1

/-! ### SYS -/

/-- R245, R247. -/
def Obligations.SysNopAndInfo : Prop :=
  ∀ s : State,
    encode .sysNop = 0 ∧ asm .sysNop = asmLine "SYS.NOP" [] ∧
    (∀ k, encode (.sysInfo k) = Fields.toWord ⟨0x02, 0, 0, 0, k⟩ ∧
      asm (.sysInfo k) = asmLine "SYS.INFO" [asmNum k.toNat]) ∧
    exec .sysNop s = .next { s with rsp := some ⟨.ok, 0, 0, 0⟩ } ∧
    (∀ (k : Long) (v : Nat),
      (k = 0 ∧ v = s.par.w ∨ k = 1 ∧ v = s.par.nbc ∨ k = 2 ∧ v = s.par.bcMaxBits ∨ k = 3 ∧ v = s.par.pqCap ∨
        k = 4 ∧ v = s.par.symw ∨ k = 5 ∧ v = s.par.sbCap) →
      exec (.sysInfo k) s = .next { s with rsp := some ⟨.ok, 0, 0, BitVec.ofNat 32 v⟩ }) ∧
    (∀ k : Long, 5 < k.toNat → EndsWith .outOfRange s (exec (.sysInfo k) s))

/-- R246, R48, R290: SYS.RESET answers OK and leaves every item of state at its reset value, whatever the state was; the
parameters stay. -/
def Obligations.SysResetLeavesTheResetState : Prop :=
  ∀ s : State, encode .sysReset = 1 ∧ asm .sysReset = asmLine "SYS.RESET" [] ∧
    ∃ t, exec .sysReset s = .next t ∧ t.answeredOk 0 0 0 ∧
    t.slots.length = s.par.nbc ∧ (∀ a, (t.slot a).bits = [] ∧ (t.slot a).nw = 0) ∧ t.strm = .inactive ∧
    t.pqInv = false ∧ t.pqh = [] ∧ (∀ x, Table.get? t.ft x = none) ∧ t.nodes = [] ∧
    (∀ x, Table.get? t.cwt x = none) ∧ t.sb = [] ∧ t.par = s.par

/-! ### BC -/

/-- R121. -/
def Obligations.BcNewCreatesTheSlotAfresh : Prop :=
  ∀ (s : State) (a : SlotNo) (n : Long),
    encode (.bcNew a n) = Fields.toWord ⟨0x10, a, 0, 0, n⟩ ∧
    asm (.bcNew a n) = asmLine "BC.NEW" [asmSlot a, asmNum n.toNat] ∧
    (s.locked a = true → EndsWith .busy s (exec (.bcNew a n) s)) ∧
    (s.locked a = false → s.par.bcMaxBits < n.toNat → EndsWith .capacityExceeded s (exec (.bcNew a n) s)) ∧
    (s.hasSlot a → s.locked a = false → n.toNat ≤ s.par.bcMaxBits →
      ∃ t, exec (.bcNew a n) s = .next t ∧ t.answeredOk 0 0 0 ∧ OnlySlotChanged a s t ∧
        (t.slot a).bits = [] ∧ (t.slot a).nw = ceilDiv n.toNat s.par.w)

/-- R123. -/
def Obligations.BcPushAppendsOneBit : Prop :=
  ∀ (s : State) (a : SlotNo) (v : Bool),
    encode (.bcPush a v) = Fields.toWord ⟨0x11, a, 0, if v then 1 else 0, 0⟩ ∧
    asm (.bcPush a v) = asmLine "BC.PUSH" [asmSlot a, asmBit v] ∧
    (s.locked a = true → EndsWith .busy s (exec (.bcPush a v) s)) ∧
    (s.locked a = false → (s.slot a).len = s.par.bcMaxBits →
      EndsWith .capacityExceeded s (exec (.bcPush a v) s)) ∧
    (s.hasSlot a → s.locked a = false → (s.slot a).len ≠ s.par.bcMaxBits →
      ∃ t, exec (.bcPush a v) s = .next t ∧ t.answeredOk 0 0 0 ∧ OnlySlotChanged a s t ∧
        (t.slot a).bits = (s.slot a).bits ++ [v] ∧
        (t.slot a).nw = max (s.slot a).nw (ceilDiv ((s.slot a).len + 1) s.par.w))

/-- R125. -/
def Obligations.BcPopRemovesTheLastBit : Prop :=
  ∀ (s : State) (a : SlotNo),
    encode (.bcPop a) = Fields.toWord ⟨0x12, a, 0, 0, 0⟩ ∧
    asm (.bcPop a) = asmLine "BC.POP" [asmSlot a] ∧
    (s.locked a = true → EndsWith .busy s (exec (.bcPop a) s)) ∧
    (s.locked a = false → (s.slot a).len = 0 → EndsWith .empty s (exec (.bcPop a) s)) ∧
    (∀ (bs : List Bool) (v : Bool), s.hasSlot a → s.locked a = false → (s.slot a).bits = bs ++ [v] →
      ∃ t, exec (.bcPop a) s = .next t ∧ t.answeredOk 0 0 (if v then 1 else 0) ∧ OnlySlotChanged a s t ∧
        (t.slot a).bits = bs ∧ (t.slot a).nw = (s.slot a).nw)

/-- R127. -/
def Obligations.BcGetReadsTheBit : Prop :=
  ∀ (s : State) (a : SlotNo) (j : Long),
    encode (.bcGet a j) = Fields.toWord ⟨0x13, a, 0, 0, j⟩ ∧
    asm (.bcGet a j) = asmLine "BC.GET" [asmSlot a, asmNum j.toNat] ∧
    ((s.slot a).len ≤ j.toNat → EndsWith .outOfRange s (exec (.bcGet a j) s)) ∧
    (∀ v : Bool, (s.slot a).bits[j.toNat]? = some v →
      exec (.bcGet a j) s = .next { s with rsp := some ⟨.ok, 0, 0, if v then 1 else 0⟩ })

/-- R129, R63: only bit `j` changes. -/
def Obligations.BcSetWritesOneBit : Prop :=
  ∀ (s : State) (a : SlotNo) (j : Long) (v : Bool),
    encode (.bcSet a j v) = Fields.toWord ⟨0x14, a, 0, if v then 1 else 0, j⟩ ∧
    asm (.bcSet a j v) = asmLine "BC.SET" [asmSlot a, asmNum j.toNat, asmBit v] ∧
    (s.locked a = true → EndsWith .busy s (exec (.bcSet a j v) s)) ∧
    (s.locked a = false → (s.slot a).len ≤ j.toNat → EndsWith .outOfRange s (exec (.bcSet a j v) s)) ∧
    (s.hasSlot a → s.locked a = false → j.toNat < (s.slot a).len →
      ∃ t, exec (.bcSet a j v) s = .next t ∧ t.answeredOk 0 0 0 ∧ OnlySlotChanged a s t ∧
        (t.slot a).len = (s.slot a).len ∧ (t.slot a).nw = (s.slot a).nw ∧
        (t.slot a).bits[j.toNat]? = some v ∧ ∀ k, k ≠ j.toNat → (t.slot a).bits[k]? = (s.slot a).bits[k]?)

/-- R131. -/
def Obligations.BcFillSetsEveryBit : Prop :=
  ∀ (s : State) (a : SlotNo) (v : Bool),
    encode (.bcFill a v) = Fields.toWord ⟨0x15, a, 0, if v then 1 else 0, 0⟩ ∧
    asm (.bcFill a v) = asmLine "BC.FILL" [asmSlot a, asmBit v] ∧
    (s.locked a = true → EndsWith .busy s (exec (.bcFill a v) s)) ∧
    (s.hasSlot a → s.locked a = false →
      ∃ t, exec (.bcFill a v) s = .next t ∧ t.answeredOk 0 0 0 ∧ OnlySlotChanged a s t ∧
        (t.slot a).len = (s.slot a).len ∧ (t.slot a).nw = (s.slot a).nw ∧
        ∀ k, k < (s.slot a).len → (t.slot a).bits[k]? = some v)

/-- R133: the source is the value of slot `b` when the command arrived, also when it is the destination. -/
def Obligations.BcExtendAppendsTheSource : Prop :=
  ∀ (s : State) (a b : SlotNo),
    encode (.bcExtend a b) = Fields.toWord ⟨0x16, a, b, 0, 0⟩ ∧
    asm (.bcExtend a b) = asmLine "BC.EXTEND" [asmSlot a, asmSlot b] ∧
    (s.locked a = true → EndsWith .busy s (exec (.bcExtend a b) s)) ∧
    (s.locked a = false → s.par.bcMaxBits < (s.slot a).len + (s.slot b).len →
      EndsWith .capacityExceeded s (exec (.bcExtend a b) s)) ∧
    (s.hasSlot a → s.locked a = false → (s.slot a).len + (s.slot b).len ≤ s.par.bcMaxBits →
      ∃ t, exec (.bcExtend a b) s = .next t ∧
        t.answeredOk 0 0 (BitVec.ofNat 32 ((s.slot a).len + (s.slot b).len)) ∧ OnlySlotChanged a s t ∧
        (t.slot a).bits = (s.slot a).bits ++ (s.slot b).bits ∧
        (t.slot a).nw = max (s.slot a).nw (ceilDiv ((s.slot a).len + (s.slot b).len) s.par.w))

/-- R135: `imm[0]` is appended first. -/
def Obligations.BcExtiAppendsTheLiteral : Prop :=
  ∀ (s : State) (a : SlotNo) (imm : Long) (n : Short),
    encode (.bcExti a imm n) = Fields.toWord ⟨0x17, a, 0, n, imm⟩ ∧
    asm (.bcExti a imm n) = asmLine "BC.EXTI" [asmSlot a, asmNum imm.toNat, asmNum n.toNat] ∧
    (s.locked a = true → EndsWith .busy s (exec (.bcExti a imm n) s)) ∧
    (s.locked a = false → s.par.bcMaxBits < (s.slot a).len + n.toNat →
      EndsWith .capacityExceeded s (exec (.bcExti a imm n) s)) ∧
    (s.hasSlot a → s.locked a = false → (s.slot a).len + n.toNat ≤ s.par.bcMaxBits →
      ∃ t, exec (.bcExti a imm n) s = .next t ∧ t.answeredOk 0 0 (BitVec.ofNat 32 ((s.slot a).len + n.toNat)) ∧
        OnlySlotChanged a s t ∧ (t.slot a).len = (s.slot a).len + n.toNat ∧
        (∀ k, k < (s.slot a).len → (t.slot a).bits[k]? = (s.slot a).bits[k]?) ∧
        (∀ k, k < n.toNat → (t.slot a).bits[(s.slot a).len + k]? = some (imm.getLsbD k)) ∧
        (t.slot a).nw = max (s.slot a).nw (ceilDiv ((s.slot a).len + n.toNat) s.par.w))

/-- R137. -/
def Obligations.BcClearKeepsStorage : Prop :=
  ∀ (s : State) (a : SlotNo),
    encode (.bcClear a) = Fields.toWord ⟨0x18, a, 0, 0, 0⟩ ∧
    asm (.bcClear a) = asmLine "BC.CLEAR" [asmSlot a] ∧
    (s.locked a = true → EndsWith .busy s (exec (.bcClear a) s)) ∧
    (s.hasSlot a → s.locked a = false →
      ∃ t, exec (.bcClear a) s = .next t ∧ t.answeredOk 0 0 0 ∧ OnlySlotChanged a s t ∧
        (t.slot a).bits = [] ∧ (t.slot a).nw = (s.slot a).nw)

/-- R139, R141. -/
def Obligations.BcLenAndCap : Prop :=
  ∀ (s : State) (a : SlotNo),
    encode (.bcLen a) = Fields.toWord ⟨0x19, a, 0, 0, 0⟩ ∧
    asm (.bcLen a) = asmLine "BC.LEN" [asmSlot a] ∧
    exec (.bcLen a) s = .next { s with rsp := some ⟨.ok, if (s.slot a).len = 0 then 1 else 0, 0,
      BitVec.ofNat 32 (s.slot a).len⟩ } ∧
    encode (.bcCap a) = Fields.toWord ⟨0x1A, a, 0, 0, 0⟩ ∧
    asm (.bcCap a) = asmLine "BC.CAP" [asmSlot a] ∧
    exec (.bcCap a) s = .next { s with rsp := some ⟨.ok, 0, 0, BitVec.ofNat 32 ((s.slot a).nw * s.par.w)⟩ }

/-- R143, R147. -/
def Obligations.StreamOpensAndCloses : Prop :=
  ∀ (s : State) (a : SlotNo),
    encode (.bcSopen a) = Fields.toWord ⟨0x1B, a, 0, 0, 0⟩ ∧
    asm (.bcSopen a) = asmLine "BC.SOPEN" [asmSlot a] ∧
    (∃ t, exec (.bcSopen a) s = .next t ∧ t.answeredOk 0 0 (BitVec.ofNat 32 (ceilDiv (s.slot a).len 8)) ∧
      OnlyStreamChanged s t ∧ t.strm = if (s.slot a).len = 0 then .inactive else .active a 0) ∧
    encode .bcSclose = Fields.toWord ⟨0x1D, 0, 0, 0, 0⟩ ∧
    asm .bcSclose = asmLine "BC.SCLOSE" [] ∧
    (∃ t, exec .bcSclose s = .next t ∧ t.answeredOk 0 0 0 ∧ OnlyStreamChanged s t ∧ t.strm = .inactive)

/-- R145, R66: bit `t` of the byte is bit `8k + t` of the container where that is inside the length, and 0 elsewhere;
the stream retires with the last byte. -/
def Obligations.BcSnextDeliversTheNextByte : Prop :=
  ∀ s : State,
    encode .bcSnext = Fields.toWord ⟨0x1C, 0, 0, 0, 0⟩ ∧
    asm .bcSnext = asmLine "BC.SNEXT" [] ∧
    (s.strm = .inactive → EndsWith .endOfStream s (exec .bcSnext s)) ∧
    (∀ (i : SlotNo) (k : Nat), s.strm = .active i k →
      ∃ t byte, exec .bcSnext s = .next t ∧ t.answeredOk 0 byte 0 ∧ OnlyStreamChanged s t ∧
        (∀ n, n < 16 → byte.getLsbD n = (decide (n < 8) && ((s.slot i).bits[8 * k + n]?).getD false)) ∧
        t.strm = if (s.slot i).len ≤ 8 * (k + 1) then .inactive else .active i (k + 1))

/-- R24: no command but BC.NEW and SYS.RESET lowers the number of allocated words; BC.POP and BC.CLEAR leave it; BC.PUSH
adds a word, exactly one, only when every allocated word is full. -/
def Obligations.StorageNeverShrinks : Prop :=
  (∀ (i : Instr) (s t : State) (b : SlotNo), exec i s = .next t → i ≠ .sysReset → (∀ n, i ≠ .bcNew b n) →
    (s.slot b).nw ≤ (t.slot b).nw) ∧
  (∀ (i : Instr) (s t : State) (a b : SlotNo), exec i s = .next t → i = .bcPop a ∨ i = .bcClear a →
    (t.slot b).nw = (s.slot b).nw) ∧
  (∀ (s t : State) (a : SlotNo) (v : Bool), 0 < s.par.w → s.hasSlot a → (s.slot a).len ≤ (s.slot a).nw * s.par.w →
    exec (.bcPush a v) s = .next t → t.answeredOk 0 0 0 →
    (t.slot a).nw = if (s.slot a).len = (s.slot a).nw * s.par.w then (s.slot a).nw + 1 else (s.slot a).nw)

/-- R65, R66: `pack(B)` has `ceil_div(n, 8)` bytes, byte `k` is the sum of `B[8k + t] · 2^t` over the `t` inside the
length. -/
def Obligations.PackedBytesAreLeastSignificantFirst : Prop :=
  ∀ (bits : List Bool), (packBytes bits).length = ceilDiv bits.length 8 ∧
    ∀ k, k < ceilDiv bits.length 8 → ∃ byte, (packBytes bits)[k]? = some byte ∧ byte < 256 ∧
      ∀ t, t < 8 → byte.testBit t = (bits[8 * k + t]?).getD false

/-- R150, R103: after BC.SOPEN over a container with value B, the successive BC.SNEXT commands carry exactly the bytes
of `pack(B)`, and the next one gives END_OF_STREAM. -/
def Obligations.StreamDeliversThePackedBytes : Prop :=
  ∀ (s t : State) (a : SlotNo), exec (.bcSopen a) s = .next t →
    ∃ rs u, issueTimes .bcSnext (ceilDiv (s.slot a).len 8) t = some (rs, u) ∧
      rs.map (fun r => r.rs.toNat) = packBytes (s.slot a).bits ∧ EndsWith .endOfStream u (exec .bcSnext u)

/-- R28, R150, R301: while a stream over a slot is in progress, a command other than BC.SOPEN, BC.SNEXT, BC.SCLOSE and
SYS.RESET leaves the stream and the slot as they were. -/
def Obligations.OtherCommandsLeaveTheStreamAlone : Prop :=
  ∀ (i : Instr) (s t : State) (a : SlotNo) (k : Nat), s.strm = .active a k → exec i s = .next t →
    (∀ b, i ≠ .bcSopen b) → i ≠ .bcSnext → i ≠ .bcSclose → i ≠ .sysReset →
    t.strm = s.strm ∧ t.slot a = s.slot a

/-! ### The word level of a container -/

/-- R61, R62, R63, R24: writing the appended bits one by one with BitWrite into a store that backs the container, after
new words of any content have been allocated, gives a store that backs the container with the bits appended. -/
def Obligations.WordWritesAppendTheBits : Prop :=
  ∀ (w : Nat) (ws more : Store) (c : Container) (bs : List Bool), 0 < w → Backs w ws c →
    (∀ x ∈ more, x < 2 ^ w) → c.nw + more.length = max c.nw (ceilDiv (c.len + bs.length) w) →
    Backs w (bitWrites w (ws ++ more) c.len bs) (c.append w bs)

/-- R62, R63, R125, R131, R137: on a store that backs the container, BitRead reads its bits, BitWrite of one bit inside
the length backs the container with that bit set, the word loop of BC.FILL backs the filled container, and the store
as it is backs every shorter container. -/
def Obligations.WordStoreFollowsTheContainer : Prop :=
  ∀ (w : Nat) (ws : Store) (c : Container), 0 < w → Backs w ws c →
    (∀ (j : Nat) (b : Bool), c.bits[j]? = some b → bitRead w ws j = if b then 1 else 0) ∧
    (∀ (j : Nat) (v : Bool), j < c.len → Backs w (bitWrite w ws j v) ⟨c.bits.set j v, c.nw⟩) ∧
    (∀ v : Bool, Backs w (fillWords w ws v (ceilDiv c.len w)) ⟨List.replicate c.len v, c.nw⟩) ∧
    (∀ n : Nat, Backs w ws ⟨c.bits.take n, c.nw⟩)

/-- R66, R67: the byte taken from the backing words, masked to the bits inside the length, is the stream byte, whatever
the other bits of the words are. -/
def Obligations.StreamByteIsTheMaskedWordField : Prop :=
  ∀ (w : Nat) (ws : Store) (c : Container) (k : Nat), 0 < w → w % 8 = 0 → Backs w ws c → 8 * k < c.len →
    storeByte w ws c.len k = streamByte c.bits k

/-! ### PQ -/

/-- R161, R307. -/
def Obligations.PqCfgOnlyWhenEmpty : Prop :=
  ∀ (s : State) (v : Bool),
    encode (.pqCfg v) = Fields.toWord ⟨0x20, 0, 0, if v then 1 else 0, 0⟩ ∧
    asm (.pqCfg v) = asmLine "PQ.CFG" [asmBit v] ∧
    (s.pqh ≠ [] → EndsWith .busy s (exec (.pqCfg v) s)) ∧
    (s.pqh = [] → exec (.pqCfg v) s = .next { s with pqInv := v, rsp := some ⟨.ok, 0, 0, 0⟩ })

/-- R165, R175 (a), (b): the queue gains exactly the new entry, and stays in heap order. -/
def Obligations.PqPushAddsTheEntry : Prop :=
  ∀ (s : State) (key : Long) (val : Short),
    encode (.pqPush key val) = Fields.toWord ⟨0x21, 0, 0, val, key⟩ ∧
    asm (.pqPush key val) = asmLine "PQ.PUSH" [asmNum key.toNat, asmNum val.toNat] ∧
    (s.pqh.length = s.par.pqCap → EndsWith .capacityExceeded s (exec (.pqPush key val) s)) ∧
    (s.pqh.length ≠ s.par.pqCap →
      ∃ t, exec (.pqPush key val) s = .next t ∧ t.answeredOk 0 0 0 ∧ OnlyHeapChanged s t ∧ t.draws = s.draws ∧
        t.pqh.Perm (⟨key, val⟩ :: s.pqh) ∧
        (HeapOrdered (entryHigher s.pqInv) s.pqh → HeapOrdered (entryHigher s.pqInv) t.pqh))

/-- R167, R175: PQ.POP answers the root and removes exactly it; in heap order no entry left in the queue has strictly
higher priority, and the queue stays in heap order. -/
def Obligations.PqPopRemovesTheHighest : Prop :=
  ∀ s : State,
    encode .pqPop = Fields.toWord ⟨0x22, 0, 0, 0, 0⟩ ∧
    asm .pqPop = asmLine "PQ.POP" [] ∧
    (s.pqh = [] → EndsWith .empty s (exec .pqPop s)) ∧
    (∀ r, s.pqh[0]? = some r →
      ∃ t, exec .pqPop s = .next t ∧ t.answeredOk 0 r.val r.key ∧ OnlyHeapChanged s t ∧ (r :: t.pqh).Perm s.pqh ∧
        (HeapOrdered (entryHigher s.pqInv) s.pqh → HeapOrdered (entryHigher s.pqInv) t.pqh ∧
          ∀ x ∈ t.pqh, if s.pqInv then r.key.toNat ≤ x.key.toNat else x.key.toNat ≤ r.key.toNat))

/-- R169, R171: PQ.PEEK answers the root, which in heap order no entry outranks, and removes nothing. -/
def Obligations.PqPeekAndLen : Prop :=
  ∀ s : State,
    encode .pqPeek = Fields.toWord ⟨0x23, 0, 0, 0, 0⟩ ∧
    asm .pqPeek = asmLine "PQ.PEEK" [] ∧
    (s.pqh = [] → EndsWith .empty s (exec .pqPeek s)) ∧
    (∀ r, s.pqh[0]? = some r → exec .pqPeek s = .next { s with rsp := some ⟨.ok, 0, r.val, r.key⟩ } ∧
      (HeapOrdered (entryHigher s.pqInv) s.pqh →
        ∀ x ∈ s.pqh, if s.pqInv then r.key.toNat ≤ x.key.toNat else x.key.toNat ≤ r.key.toNat)) ∧
    encode .pqLen = Fields.toWord ⟨0x24, 0, 0, 0, 0⟩ ∧
    asm .pqLen = asmLine "PQ.LEN" [] ∧
    (∃ fl, exec .pqLen s = .next { s with rsp := some ⟨.ok, fl, 0, BitVec.ofNat 32 s.pqh.length⟩ } ∧
      ∀ n, n < 8 → fl.getLsbD n = (decide (n = 0) && s.pqh.isEmpty || decide (n = 1) && s.pqInv))

/-- R173, R175 (d): popping a queue in heap order until it is empty gives every entry once, in non-increasing priority
order, and then EMPTY. -/
def Obligations.DrainIsInPriorityOrder : Prop :=
  ∀ s : State, HeapOrdered (entryHigher s.pqInv) s.pqh →
    ∃ rs u, issueTimes .pqPop s.pqh.length s = some (rs, u) ∧
      (rs.map fun r => (⟨r.rv, r.rs⟩ : Entry)).Perm s.pqh ∧
      (rs.map fun r => r.rv.toNat).Pairwise (fun x y => if s.pqInv then x ≤ y else y ≤ x) ∧
      u.pqh = [] ∧ EndsWith .empty u (exec .pqPop u)

/-! ### HC -/

/-- R191, R193, R195: read after write on the frequency table; the built codec is not affected. -/
def Obligations.FrequencyTableCommands : Prop :=
  ∀ (s : State) (w : Long) (x : Sym),
    encode .hcFclr = Fields.toWord ⟨0x30, 0, 0, 0, 0⟩ ∧
    asm .hcFclr = asmLine "HC.FCLR" [] ∧
    (∃ t, exec .hcFclr s = .next t ∧ t.answeredOk 0 0 0 ∧ OnlyFreqsChanged s t ∧ ∀ y, Table.get? t.ft y = none) ∧
    encode (.hcFput w x) = Fields.toWord ⟨0x31, 0, 0, x, w⟩ ∧
    asm (.hcFput w x) = asmLine "HC.FPUT" [asmNum w.toNat, asmNum x.toNat] ∧
    (∃ t, exec (.hcFput w x) s = .next t ∧ t.answeredOk 0 0 0 ∧ OnlyFreqsChanged s t ∧
      Table.get? t.ft x = some w ∧ ∀ y, y ≠ x → Table.get? t.ft y = Table.get? s.ft y) ∧
    encode (.hcFget x) = Fields.toWord ⟨0x32, 0, 0, x, 0⟩ ∧
    asm (.hcFget x) = asmLine "HC.FGET" [asmNum x.toNat] ∧
    exec (.hcFget x) s = .next { s with rsp := some (match Table.get? s.ft x with
      | some v => ⟨.ok, 1, 0, v⟩
      | none => ⟨.ok, 0, 0, 0⟩) }

/-- R197, R199, R206, R208 (a), (b), R40, R42: HC.BUILD always succeeds, whatever the draws, on a canonical frequency
table: with no symbol present the empty codec, else a built codec of exactly the present symbols; only the codec
changes. -/
def Obligations.BuildMakesACodecOfThePresentSymbols : Prop :=
  ∀ s : State, TableOk s.par.nsym s.ft →
    encode .hcBuild = Fields.toWord ⟨0x33, 0, 0, 0, 0⟩ ∧
    asm .hcBuild = asmLine "HC.BUILD" [] ∧
    ∃ t, exec .hcBuild s = .next t ∧ OnlyCodecChanged s t ∧
      (∀ x, (Table.get? t.cwt x).isSome = (Table.get? s.ft x).isSome) ∧
      (s.ft = [] → t.answeredOk 0 0 0 ∧ t.nodes = [] ∧ t.cwt = []) ∧
      (s.ft ≠ [] → t.answeredOk 1 (BitVec.ofNat 16 (2 * s.ft.length - 2)) (BitVec.ofNat 32 s.ft.length) ∧
        CodecBuilt s.par.nsym s.ft.length t.nodes t.cwt)

/-- R205: from heap order, one merge takes an entry of least weight and an entry of least weight among the rest, makes
their parent with the next handle, and puts back its entry with the sum of the weights, in heap order; the first taken
is the left child under HC_FIRST = left, the right child under HC_FIRST = right, and one of the two under any. -/
def Obligations.MergeTakesTheTwoLowestWeights : Prop :=
  ∀ (p : Params) (d : Nat → Bool) (f : Forest), 2 ≤ f.heap.length → HeapOrdered pendingHigher f.heap →
    ∃ f' x y rest l r, mergeOnce p d f = some f' ∧ f.heap.Perm (x :: y :: rest) ∧
      (∀ z ∈ y :: rest, x.w ≤ z.w) ∧ (∀ z ∈ rest, y.w ≤ z.w) ∧
      f'.heap.Perm (⟨x.w + y.w, f.nodes.length⟩ :: rest) ∧ HeapOrdered pendingHigher f'.heap ∧
      f'.nodes = f.nodes ++ [.internal l r] ∧ (l = x.h ∧ r = y.h ∨ l = y.h ∧ r = x.h) ∧
      (p.hcFirst = .left → l = x.h ∧ r = y.h) ∧ (p.hcFirst = .right → l = y.h ∧ r = x.h)

/-- R208 (e): the one entry left when the merge loop ends weighs the sum of all weights of the frequency table. -/
def Obligations.RootWeightIsTheTotal : Prop :=
  ∀ (p : Params) (d : Nat → Bool) (ft : Table Long) (k : Nat), ft ≠ [] →
    ∃ e, (buildForest p d ft k).heap = [e] ∧ e.w = (ft.map fun x => x.2.toNat).sum

/-- R208 (c), R41: in a state that meets the invariants no codeword is a prefix of another symbol's. -/
def Obligations.CodewordsArePrefixFree : Prop :=
  ∀ (s : State) (x y : Sym) (cx cy : List Bool), Inv s → x ≠ y → Table.get? s.cwt x = some cx →
    Table.get? s.cwt y = some cy → ¬ cx <+: cy

/-- R208 (a), (b), (d), R42: in a state that meets the invariants with a tree, the nodes are `2m − 1` for `m` symbols
with a codeword, and a codeword has at most `m − 1` bits, at least one when `m ≥ 2`. -/
def Obligations.CodewordLengthsAreBounded : Prop :=
  ∀ s : State, Inv s → s.nodes ≠ [] → ∃ m, s.nodes.length = 2 * m - 1 ∧ s.cwt.length = m ∧
    ∀ (x : Sym) (cw : List Bool), Table.get? s.cwt x = some cw → cw.length ≤ m - 1 ∧ (2 ≤ m → 1 ≤ cw.length)

/-- R211, R213. -/
def Obligations.HcStatAndNode : Prop :=
  ∀ s : State,
    encode .hcStat = Fields.toWord ⟨0x34, 0, 0, 0, 0⟩ ∧
    asm .hcStat = asmLine "HC.STAT" [] ∧
    (s.nodes = [] → exec .hcStat s = .next { s with rsp := some ⟨.ok, 0, 0, 0⟩ }) ∧
    (s.nodes ≠ [] → exec .hcStat s = .next { s with rsp := some ⟨.ok, 1,
      BitVec.ofNat 16 (s.nodes.length - 1), BitVec.ofNat 32 s.nodes.length⟩ }) ∧
    ∀ h : Long, encode (.hcNode h) = Fields.toWord ⟨0x35, 0, 0, 0, h⟩ ∧
      asm (.hcNode h) = asmLine "HC.NODE" [asmNum h.toNat] ∧
      (s.nodes.length ≤ h.toNat → EndsWith .outOfRange s (exec (.hcNode h) s)) ∧
      (∀ x, s.nodes[h.toNat]? = some (.leaf x) → exec (.hcNode h) s = .next { s with rsp := some ⟨.ok, 0, x, 0⟩ }) ∧
      (∀ l r, s.nodes[h.toNat]? = some (.internal l r) → l < 2 ^ 16 → r < 2 ^ 16 →
        exec (.hcNode h) s = .next { s with rsp := some ⟨.ok, 1, 0, BitVec.ofNat 32 (l + 2 ^ 16 * r)⟩ })

/-- R215. -/
def Obligations.HcCwgetCopiesTheCodeword : Prop :=
  ∀ (s : State) (a : SlotNo) (x : Sym),
    encode (.hcCwget a x) = Fields.toWord ⟨0x36, a, 0, x, 0⟩ ∧
    asm (.hcCwget a x) = asmLine "HC.CWGET" [asmSlot a, asmNum x.toNat] ∧
    (s.locked a = true → EndsWith .busy s (exec (.hcCwget a x) s)) ∧
    (s.locked a = false → Table.get? s.cwt x = none → EndsWith .unknownSymbol s (exec (.hcCwget a x) s)) ∧
    (∀ cw, s.locked a = false → Table.get? s.cwt x = some cw →
      (s.par.bcMaxBits < cw.length → EndsWith .capacityExceeded s (exec (.hcCwget a x) s)) ∧
      (s.hasSlot a → cw.length ≤ s.par.bcMaxBits →
        ∃ t, exec (.hcCwget a x) s = .next t ∧ t.answeredOk 0 0 (BitVec.ofNat 32 cw.length) ∧
          OnlySlotChanged a s t ∧ (t.slot a).bits = cw ∧
          (t.slot a).nw = max (s.slot a).nw (ceilDiv cw.length s.par.w)))

/-- R220: the codewords of the buffer's symbols end to end replace the content of the slot; an unknown symbol anywhere
in the buffer is reported before the length. -/
def Obligations.HcEncodeConcatenatesTheCodewords : Prop :=
  ∀ (s : State) (a : SlotNo),
    encode (.hcEncode a) = Fields.toWord ⟨0x37, a, 0, 0, 0⟩ ∧
    asm (.hcEncode a) = asmLine "HC.ENCODE" [asmSlot a] ∧
    (s.locked a = true → EndsWith .busy s (exec (.hcEncode a) s)) ∧
    (s.locked a = false → (∃ x ∈ s.sb, Table.get? s.cwt x = none) →
      EndsWith .unknownSymbol s (exec (.hcEncode a) s)) ∧
    (∀ cws : List (List Bool), s.locked a = false → s.sb.map (Table.get? s.cwt) = cws.map some →
      (s.par.bcMaxBits < cws.flatten.length → EndsWith .capacityExceeded s (exec (.hcEncode a) s)) ∧
      (s.hasSlot a → cws.flatten.length ≤ s.par.bcMaxBits →
        ∃ t, exec (.hcEncode a) s = .next t ∧ t.answeredOk 0 0 (BitVec.ofNat 32 cws.flatten.length) ∧
          OnlySlotChanged a s t ∧ (t.slot a).bits = cws.flatten ∧
          (t.slot a).nw = max (s.slot a).nw (ceilDiv cws.flatten.length s.par.w)))

/-- R225: a container that begins with the codewords of `imm` symbols decodes to them, whatever follows, and the answer
is the number of bits consumed; the other outcomes in their order. -/
def Obligations.HcDecodeReadsTheCodewords : Prop :=
  ∀ (s : State) (b : SlotNo) (n : Long), CodecOk s.par.nsym s.nodes s.cwt →
    encode (.hcDecode b n) = Fields.toWord ⟨0x38, 0, b, 0, n⟩ ∧
    asm (.hcDecode b n) = asmLine "HC.DECODE" [asmSlot b, asmNum n.toNat] ∧
    (n = 0 → exec (.hcDecode b n) s = .next { s with sb := [], rsp := some ⟨.ok, 0, 0, 0⟩ }) ∧
    (n ≠ 0 → s.nodes = [] → EndsWith .emptyTree s (exec (.hcDecode b n) s)) ∧
    (n ≠ 0 → s.nodes ≠ [] → s.par.sbCap < n.toNat → EndsWith .capacityExceeded s (exec (.hcDecode b n) s)) ∧
    (∀ (syms : List Sym) (cws : List (List Bool)) (rest : List Bool), s.nodes ≠ [] → n.toNat ≤ s.par.sbCap →
      n ≠ 0 → syms.map (Table.get? s.cwt) = cws.map some → (s.slot b).bits = cws.flatten ++ rest →
      (syms.length = n.toNat →
        ∃ t, exec (.hcDecode b n) s = .next t ∧ t.answeredOk 0 0 (BitVec.ofNat 32 cws.flatten.length) ∧
          OnlyBufferChanged s t ∧ t.sb = syms) ∧
      (∀ (x : Sym) (tail : List Bool), syms.length < n.toNat → Table.get? s.cwt x = some (rest ++ tail) → tail ≠ [] →
        EndsWith .truncatedInput s (exec (.hcDecode b n) s)))

/-- R230: in phase Built, when every symbol of the buffer has a codeword, the slot is unlocked and the encoding fits,
HC.ENCODE followed by HC.DECODE of as many symbols ends with the buffer as it was, both OK with the same `rv`. -/
def Obligations.EncodeThenDecodeIsTheIdentity : Prop :=
  ∀ (s : State) (a : SlotNo) (n : Long) (out : List Bool), Inv s → s.hasSlot a → s.nodes ≠ [] →
    s.locked a = false → (∀ x ∈ s.sb, (Table.get? s.cwt x).isSome = true) → encodeSyms s.cwt s.sb = some out →
    out.length ≤ s.par.bcMaxBits → n.toNat = s.sb.length →
    ∃ t u, exec (.hcEncode a) s = .next t ∧ exec (.hcDecode a n) t = .next u ∧ u.sb = s.sb ∧
      t.answeredOk 0 0 (BitVec.ofNat 32 out.length) ∧ u.rsp = t.rsp

/-- R200, R231: a table of one symbol builds a one-node tree, whatever the weight; the symbol's codeword is empty, a
buffer of copies of it encodes to the empty container, and any count up to SB_CAP decodes from any container to that
many copies with `rv = 0`. Encoding the empty buffer gives a zero-length container, and decoding no symbols gives the
empty sequence for any codec and any container. -/
def Obligations.SingleSymbolAndEmptyCorpus : Prop :=
  (∀ (s : State) (x : Sym) (w : Long), s.ft = [(x, w)] →
    ∃ t, exec .hcBuild s = .next t ∧ t.answeredOk 1 0 1 ∧ t.nodes = [.leaf x] ∧ Table.get? t.cwt x = some [] ∧
      (∀ y, y ≠ x → Table.get? t.cwt y = none) ∧
      (∀ n, encodeSyms t.cwt (List.replicate n x) = some []) ∧
      ∀ (u : State) (b : SlotNo) (n : Long), u.nodes = t.nodes → n.toNat ≤ u.par.sbCap →
        ∃ v, exec (.hcDecode b n) u = .next v ∧ v.answeredOk 0 0 0 ∧ OnlyBufferChanged u v ∧
          v.sb = List.replicate n.toNat x) ∧
  ∀ (s : State) (a : SlotNo),
    (s.hasSlot a → s.locked a = false → s.sb = [] →
      ∃ t, exec (.hcEncode a) s = .next t ∧ t.answeredOk 0 0 0 ∧ OnlySlotChanged a s t ∧ (t.slot a).bits = []) ∧
    ∃ t, exec (.hcDecode a 0) s = .next t ∧ t.answeredOk 0 0 0 ∧ OnlyBufferChanged s t ∧ t.sb = []

/-- R208 (f): whatever the ties, the code HC.BUILD makes is of minimum redundancy: the sum over the symbols of weight
times codeword length is no more than for any other assignment of codewords in which none is a prefix of another. The
spec marks (f) as general knowledge. -/
def Obligations.BuiltCodeHasMinimumRedundancy : Prop :=
  ∀ (p : Params) (d : Nat → Bool) (nsym : Nat) (ft : Table Long) (k : Nat) (c : Built) (code : Sym → List Bool),
    TableOk nsym ft → buildCodec p d ft k = some c →
    (∀ x y : Sym, (Table.get? ft x).isSome = true → (Table.get? ft y).isSome = true → x ≠ y → ¬ code x <+: code y) →
    (ft.map fun e => e.2.toNat * ((Table.get? c.cwt e.1).getD []).length).sum ≤
      (ft.map fun e => e.2.toNat * (code e.1).length).sum

/-! ### SB -/

/-- R241, R242. -/
def Obligations.SbClrAndPush : Prop :=
  ∀ (s : State) (x : Sym),
    encode .sbClr = Fields.toWord ⟨0x40, 0, 0, 0, 0⟩ ∧
    asm .sbClr = asmLine "SB.CLR" [] ∧
    exec .sbClr s = .next { s with sb := [], rsp := some ⟨.ok, 0, 0, 0⟩ } ∧
    encode (.sbPush x) = Fields.toWord ⟨0x41, 0, 0, x, 0⟩ ∧
    asm (.sbPush x) = asmLine "SB.PUSH" [asmNum x.toNat] ∧
    (s.sb.length = s.par.sbCap → EndsWith .capacityExceeded s (exec (.sbPush x) s)) ∧
    (s.sb.length ≠ s.par.sbCap →
      ∃ t, exec (.sbPush x) s = .next t ∧ t.answeredOk 0 0 0 ∧ OnlyBufferChanged s t ∧ t.sb = s.sb ++ [x])

/-- R243, R244. -/
def Obligations.SbGetAndLen : Prop :=
  ∀ (s : State) (j : Long),
    encode (.sbGet j) = Fields.toWord ⟨0x42, 0, 0, 0, j⟩ ∧
    asm (.sbGet j) = asmLine "SB.GET" [asmNum j.toNat] ∧
    (s.sb.length ≤ j.toNat → EndsWith .outOfRange s (exec (.sbGet j) s)) ∧
    (∀ x, s.sb[j.toNat]? = some x → exec (.sbGet j) s = .next { s with rsp := some ⟨.ok, 0, x, 0⟩ }) ∧
    encode .sbLen = Fields.toWord ⟨0x43, 0, 0, 0, 0⟩ ∧
    asm .sbLen = asmLine "SB.LEN" [] ∧
    exec .sbLen s = .next { s with rsp := some ⟨.ok, if s.sb = [] then 1 else 0, 0, BitVec.ofNat 32 s.sb.length⟩ }

/-! ### Pseudo-commands -/

/-- R103: `BC.BITS cA, "b0b1..."` expands to BC.EXTI commands, each well formed for a slot in range, whose literals put
end to end are the string. -/
def Obligations.BcBitsExpandsToTheString : Prop :=
  ∀ (p : Params) (a : SlotNo) (bits : List Bool), slotInRange p a →
    ∃ runs : List (List Bool), runs.flatten = bits ∧
      (Pseudo.bcBits a bits).expand.length = runs.length ∧
      ∀ (k : Nat) (run : List Bool), runs[k]? = some run → run.length ≤ 32 ∧ ∃ (imm : Long) (n : Short),
        (Pseudo.bcBits a bits).expand[k]? = some (Instr.bcExti a imm n) ∧
        (Instr.bcExti a imm n).wf p = true ∧ literalBits imm n.toNat = run
end

