-- ==== Sys2Proof/Laws/BitStore.lean ====
section
/-! SUPPORT. The laws of the word level (20_memory.md R60 to R67): a bit reads back as written, a write changes one
bit, a store that backs a container. -/

namespace Sys2Proof.Machine

/-- A bit read is the bit of the word. -/
theorem bitRead_eq (w : Nat) (ws : Store) (j : Nat) :
    bitRead w ws j = if (memReadWord ws (j / w)).testBit (j % w) then 1 else 0 := by
  unfold bitRead
  rw [Nat.testBit, Nat.and_comm]
  have h := Nat.and_one_is_mod (memReadWord ws (j / w) >>> (j % w))
  rw [Nat.and_comm] at h
  rcases Nat.mod_two_eq_zero_or_one (memReadWord ws (j / w) >>> (j % w)) with h' | h' <;> simp [h, h']

theorem bitRead_lt (w : Nat) (ws : Store) (j : Nat) : bitRead w ws j < 2 := by
  rw [bitRead_eq]; split <;> omega

@[simp] theorem memWriteWord_length (ws : Store) (q v : Nat) : (memWriteWord ws q v).length = ws.length := by
  simp [memWriteWord]

@[simp] theorem bitWrite_length (w : Nat) (ws : Store) (j : Nat) (v : Bool) :
    (bitWrite w ws j v).length = ws.length := by
  simp [bitWrite]

@[simp] theorem bitWrites_length (w : Nat) (ws : Store) (j : Nat) (vs : List Bool) :
    (bitWrites w ws j vs).length = ws.length := by
  induction vs generalizing ws j with
  | nil => rfl
  | cons v vs ih => simp [bitWrites, ih]

theorem memReadWord_write {ws : Store} {q r v : Nat} (h : q < ws.length) :
    memReadWord (memWriteWord ws q v) r = if r = q then v else memReadWord ws r := by
  unfold memReadWord memWriteWord
  by_cases hr : r = q
  · subst hr; simp [h]
  · simp [hr, Ne.symm hr]

/-- The bits of a word that BitWrite writes (R63). -/
theorem written_testBit (w x k i : Nat) (v : Bool) (hk : k < w) (hi : i < w) :
    ((x &&& ((2 ^ w - 1) ^^^ (1 <<< k))) ||| ((if v then 1 else 0) <<< k)).testBit i =
      if i = k then v else x.testBit i := by
  rw [Nat.testBit_or, Nat.testBit_and, Nat.testBit_xor, Nat.testBit_two_pow_sub_one, Nat.one_shiftLeft,
    Nat.testBit_two_pow]
  cases v
  · by_cases h : i = k
    · subst h; simp [hi]
    · simp [h, hi, Ne.symm h]
  · simp only [if_true, Nat.one_shiftLeft, Nat.testBit_two_pow]
    by_cases h : i = k
    · subst h; simp
    · simp [h, hi, Ne.symm h]

/-- A written word is a W-bit word. -/
theorem written_lt (w x k : Nat) (v : Bool) (hk : k < w) :
    (x &&& ((2 ^ w - 1) ^^^ (1 <<< k))) ||| ((if v then 1 else 0) <<< k) < 2 ^ w := by
  have h1 : x &&& ((2 ^ w - 1) ^^^ (1 <<< k)) < 2 ^ w := by
    refine Nat.and_lt_two_pow _ (Nat.xor_lt_two_pow (by have := Nat.two_pow_pos w; omega) ?_)
    rw [Nat.one_shiftLeft]
    exact Nat.pow_lt_pow_right (by omega) hk
  refine Nat.or_lt_two_pow h1 ?_
  cases v
  · simp
  · simp only [if_true, Nat.one_shiftLeft]
    exact Nat.pow_lt_pow_right (by omega) hk

/-- Read after write, at every position of the allocated words: the bit written, and no other bit changed (R63). -/
theorem bitRead_bitWrite {w : Nat} (hw : 0 < w) {ws : Store} {j : Nat} (hj : j < ws.length * w) (v : Bool) (i : Nat) :
    bitRead w (bitWrite w ws j v) i = if i = j then (if v then 1 else 0) else bitRead w ws i := by
  have hq : j / w < ws.length := (Nat.div_lt_iff_lt_mul hw).2 hj
  rw [bitRead_eq, bitRead_eq, bitWrite, memReadWord_write hq]
  by_cases hij : i = j
  · subst hij
    rw [if_pos rfl, if_pos rfl, written_testBit w _ _ _ v (Nat.mod_lt _ hw) (Nat.mod_lt _ hw), if_pos rfl]
  · rw [if_neg hij]
    by_cases hd : i / w = j / w
    · have hm : i % w ≠ j % w := by
        intro he
        exact hij (by rw [← Nat.div_add_mod i w, ← Nat.div_add_mod j w, hd, he])
      rw [if_pos hd, written_testBit w _ _ _ v (Nat.mod_lt _ hw) (Nat.mod_lt _ hw), if_neg hm, hd]
    · rw [if_neg hd]

/-- A write keeps every word a W-bit word. -/
theorem bitWrite_width {w : Nat} (hw : 0 < w) {ws : Store} (h : ∀ x ∈ ws, x < 2 ^ w) (j : Nat) (v : Bool) :
    ∀ x ∈ bitWrite w ws j v, x < 2 ^ w := by
  intro x hx
  rcases List.mem_or_eq_of_mem_set hx with hx | rfl
  · exact h x hx
  · exact written_lt w _ _ v (Nat.mod_lt _ hw)

theorem bitWrites_width {w : Nat} (hw : 0 < w) {ws : Store} (h : ∀ x ∈ ws, x < 2 ^ w) (j : Nat) (vs : List Bool) :
    ∀ x ∈ bitWrites w ws j vs, x < 2 ^ w := by
  induction vs generalizing ws j with
  | nil => exact h
  | cons v vs ih => exact ih (bitWrite_width hw h j v) _

/-- A run of writes writes its run and nothing else. -/
theorem bitRead_bitWrites {w : Nat} (hw : 0 < w) {ws : Store} {j : Nat} {vs : List Bool}
    (hj : j + vs.length ≤ ws.length * w) (i : Nat) :
    bitRead w (bitWrites w ws j vs) i =
      match if j ≤ i then vs[i - j]? else none with
      | some v => if v then 1 else 0
      | none => bitRead w ws i := by
  induction vs generalizing ws j with
  | nil => simp [bitWrites]
  | cons v vs ih =>
    simp only [List.length_cons] at hj
    rw [bitWrites, ih (by simp; omega), bitRead_bitWrite hw (by omega)]
    rcases Nat.lt_trichotomy i j with h | rfl | h
    · rw [if_neg (by omega), if_neg (by omega)]
      simp only
      rw [if_neg (by omega)]
    · rw [if_neg (by omega), if_pos (Nat.le_refl i)]
      simp
    · obtain ⟨n, rfl⟩ : ∃ n, i = j + 1 + n := ⟨i - (j + 1), by omega⟩
      have h1 : j + 1 ≤ j + 1 + n := by omega
      have h2 : j ≤ j + 1 + n := by omega
      have h3 : ¬(j + 1 + n = j) := by omega
      have h4 : j + 1 + n - (j + 1) = n := by omega
      have h5 : j + 1 + n - j = n + 1 := by omega
      simp only [h1, h2, h3, h4, h5, if_true, if_false, List.getElem?_cons_succ]

/-! ### The word loop of BC.FILL -/

@[simp] theorem fillWords_length (w : Nat) (ws : Store) (v : Bool) (n : Nat) :
    (fillWords w ws v n).length = ws.length := by
  induction n with
  | zero => rfl
  | succ n ih => simp [fillWords, ih]

/-- The first `n` words hold the pattern, the others what they held. -/
theorem memReadWord_fillWords (w : Nat) (ws : Store) (v : Bool) {n : Nat} (hn : n ≤ ws.length) (q : Nat) :
    memReadWord (fillWords w ws v n) q = if q < n then (if v then 2 ^ w - 1 else 0) else memReadWord ws q := by
  induction n with
  | zero => simp [fillWords]
  | succ n ih =>
    simp only [fillWords]
    rw [memReadWord_write (by rw [fillWords_length]; omega), ih (by omega)]
    by_cases h : q = n
    · simp [h]
    · rw [if_neg h]
      by_cases h2 : q < n
      · simp [h2, Nat.lt_succ_of_lt h2]
      · simp [h2]
        intro
        omega

theorem fillWords_width {w : Nat} {ws : Store} (h : ∀ x ∈ ws, x < 2 ^ w) (v : Bool) (n : Nat) :
    ∀ x ∈ fillWords w ws v n, x < 2 ^ w := by
  induction n with
  | zero => exact h
  | succ n ih =>
    intro x hx
    rcases List.mem_or_eq_of_mem_set hx with hx | rfl
    · exact ih x hx
    · have := Nat.two_pow_pos w
      split <;> omega

end Sys2Proof.Machine
end

