-- ==== Sys2Proof/Laws/Heap.lean ====
section
/-! SUPPORT. What the heap operations do, once for every priority relation that is a strict weak order: they keep the
multiset of elements, restore heap order, and pop an element no other outranks (42_priority_queue.md R175). -/

namespace Sys2Proof.Machine

/-- A priority relation is a strict weak order: it is asymmetric, and "not higher" is transitive. -/
structure WeakOrder {α : Type} (higher : α → α → Bool) : Prop where
  asymm : ∀ x y, higher x y = true → higher y x = false
  trans : ∀ x y z, higher x y = false → higher y z = false → higher x z = false

theorem WeakOrder.irrefl {α : Type} {higher : α → α → Bool} (wo : WeakOrder higher) (x : α) :
    higher x x = false := by
  by_contra hne
  exact hne (wo.asymm x x (by simpa using hne))

theorem entryHigher_weakOrder (inv : Bool) : WeakOrder (entryHigher inv) := by
  constructor <;> intros <;> cases inv <;> simp_all [entryHigher] <;> omega

/-! ### swap -/

theorem swap_eq {α : Type} {h : List α} {i j : Nat} {x y : α} (hi : h[i]? = some x) (hj : h[j]? = some y) :
    swap h i j = (h.set i y).set j x := by
  simp [swap, hi, hj]

@[simp] theorem swap_length {α : Type} (h : List α) (i j : Nat) : (swap h i j).length = h.length := by
  unfold swap
  split <;> simp

theorem swap_getElem? {α : Type} {h : List α} {i j : Nat} (hi : i < h.length) (hj : j < h.length) (m : Nat) :
    (swap h i j)[m]? = if m = j then h[i]? else if m = i then h[j]? else h[m]? := by
  rw [swap_eq (List.getElem?_eq_getElem hi) (List.getElem?_eq_getElem hj)]
  rw [List.getElem?_set, List.getElem?_set, List.length_set]
  by_cases hm : m = j
  · subst hm
    simp [hj, hi]
  · rw [if_neg (fun e => hm e.symm), if_neg hm]
    by_cases hm' : m = i
    · subst hm'
      simp [hi, hj]
    · rw [if_neg (fun e => hm' e.symm), if_neg hm']

theorem swap_perm {α : Type} (h : List α) (i j : Nat) : (swap h i j).Perm h := by
  unfold swap
  split
  · next x y hi hj =>
    obtain ⟨hil, rfl⟩ := List.getElem?_eq_some_iff.1 hi
    obtain ⟨hjl, rfl⟩ := List.getElem?_eq_some_iff.1 hj
    exact List.set_set_perm hil hjl
  · exact List.Perm.refl _

/-! ### sift_up -/

theorem siftUp_perm {α : Type} (higher : α → α → Bool) (fuel : Nat) (h : List α) (i : Nat) :
    (siftUp higher fuel h i).Perm h := by
  induction fuel generalizing h i with
  | zero => exact List.Perm.refl _
  | succ n ih =>
    unfold siftUp
    split
    · exact List.Perm.refl _
    · split
      · split
        · exact (ih _ _).trans (swap_perm _ _ _)
        · exact List.Perm.refl _
      · exact List.Perm.refl _

/-- Heap order but for the element at `i`, which may be higher than its parent. -/
structure OrderedBut {α : Type} (higher : α → α → Bool) (h : List α) (i : Nat) : Prop where
  off : ∀ (j : Nat) (x p : α), 1 ≤ j → j ≠ i → h[j]? = some x → h[(j - 1) / 2]? = some p → higher x p = false
  skip : ∀ (j : Nat) (x p : α), 1 ≤ i → 1 ≤ j → (j - 1) / 2 = i → h[j]? = some x → h[(i - 1) / 2]? = some p →
    higher x p = false

theorem siftUp_ordered {α : Type} {higher : α → α → Bool} (wo : WeakOrder higher) (fuel : Nat) (h : List α) (i : Nat)
    (hf : i ≤ fuel) (hil : i < h.length) (ho : OrderedBut higher h i) : HeapOrdered higher (siftUp higher fuel h i) := by
  induction fuel generalizing h i with
  | zero =>
    obtain rfl : i = 0 := by omega
    exact fun j x p hj hx hp => ho.off j x p hj (by omega) hx hp
  | succ n ih =>
    unfold siftUp
    split
    · next hi => subst hi; exact fun j x p hj hx hp => ho.off j x p hj (by omega) hx hp
    · next hi =>
      have hpl : (i - 1) / 2 < h.length := by omega
      split
      · next x y hx hy =>
        split
        · next hxy =>
          refine ih _ _ (by omega) (by simpa using hpl) ⟨?_, ?_⟩
          · intro j u v hj hjp hu hv
            rw [swap_getElem? hil hpl] at hu hv
            by_cases hji : j = i
            · subst hji
              rw [if_neg (by omega), if_pos rfl, hy] at hu
              rw [if_pos rfl, hx] at hv
              cases hu; cases hv
              exact wo.asymm _ _ hxy
            · rw [if_neg hjp, if_neg hji] at hu
              by_cases hq : (j - 1) / 2 = (i - 1) / 2
              · rw [if_pos hq, hx] at hv
                cases hv
                exact wo.trans _ _ _ (ho.off j u y hj hji hu (by rw [hq]; exact hy)) (wo.asymm _ _ hxy)
              · rw [if_neg hq] at hv
                by_cases hq' : (j - 1) / 2 = i
                · rw [if_pos hq', hy] at hv
                  cases hv
                  exact ho.skip j u y (by omega) hj hq' hu hy
                · rw [if_neg hq'] at hv
                  exact ho.off j u v hj hji hu hv
          · intro j u v hp hj hjp hu hv
            rw [swap_getElem? hil hpl] at hu hv
            rw [if_neg (by omega), if_neg (by omega)] at hv
            have hyv : higher y v = false := ho.off _ y v (by omega) (by omega) hy hv
            rw [if_neg (by omega)] at hu
            by_cases hji : j = i
            · rw [if_pos hji, hy] at hu
              cases hu
              exact hyv
            · rw [if_neg hji] at hu
              exact wo.trans _ _ _ (ho.off j u y hj hji hu (by rw [hjp]; exact hy)) hyv
        · next hxy =>
          intro j u v hj hu hv
          by_cases hji : j = i
          · subst hji
            rw [hx] at hu
            rw [hy] at hv
            cases hu; cases hv
            simpa using hxy
          · exact ho.off j u v hj hji hu hv
      · next hno => exact absurd (List.getElem?_eq_getElem hpl) (by
          intro e
          exact hno _ _ (List.getElem?_eq_getElem hil) e)

/-! ### sift_down -/

theorem siftDown_perm {α : Type} (higher : α → α → Bool) (t : TieRule) (d : Nat → Bool) (fuel : Nat) (h : List α)
    (i k : Nat) : (siftDown higher t d fuel h i k).1.Perm h := by
  induction fuel generalizing h i k with
  | zero => exact List.Perm.refl _
  | succ n ih =>
    unfold siftDown
    split
    · split
      · exact (ih _ _ _).trans (swap_perm _ _ _)
      · exact List.Perm.refl _
    · split <;> split
      · exact (ih _ _ _).trans (swap_perm _ _ _)
      · exact List.Perm.refl _
      · exact (ih _ _ _).trans (swap_perm _ _ _)
      · exact List.Perm.refl _
    · exact List.Perm.refl _

/-- Heap order but for the element at `i`, which may be lower than its children. -/
structure OrderedAbove {α : Type} (higher : α → α → Bool) (h : List α) (i : Nat) : Prop where
  off : ∀ (j : Nat) (x p : α), 1 ≤ j → (j - 1) / 2 ≠ i → h[j]? = some x → h[(j - 1) / 2]? = some p →
    higher x p = false
  skip : ∀ (j : Nat) (x p : α), 1 ≤ i → 1 ≤ j → (j - 1) / 2 = i → h[j]? = some x → h[(i - 1) / 2]? = some p →
    higher x p = false

/-- The hole moves down to the child `c` when that child is not outranked by its sibling and outranks the element. -/
theorem OrderedAbove.down {α : Type} {higher : α → α → Bool} (wo : WeakOrder higher) {h : List α} {i c : Nat} {x y : α}
    (ho : OrderedAbove higher h i) (hc1 : 1 ≤ c) (hc : (c - 1) / 2 = i) (hx : h[i]? = some x) (hy : h[c]? = some y)
    (hyx : higher y x = true)
    (hsib : ∀ (j : Nat) (z : α), 1 ≤ j → (j - 1) / 2 = i → h[j]? = some z → higher z y = false) :
    OrderedAbove higher (swap h c i) c := by
  have hcl : c < h.length := (List.getElem?_eq_some_iff.1 hy).1
  have hil : i < h.length := (List.getElem?_eq_some_iff.1 hx).1
  constructor
  · intro j u v hj hjc hu hv
    rw [swap_getElem? hcl hil] at hu hv
    rw [if_neg hjc] at hv
    by_cases hp : (j - 1) / 2 = i
    · rw [if_neg (by omega)] at hu
      rw [if_pos hp, hy] at hv
      cases hv
      by_cases hjc' : j = c
      · rw [if_pos hjc', hx] at hu
        cases hu
        exact wo.asymm _ _ hyx
      · rw [if_neg hjc'] at hu
        exact hsib j u hj hp hu
    · rw [if_neg hp] at hv
      by_cases hji : j = i
      · rw [if_pos hji, hy] at hu
        cases hu
        subst hji
        exact ho.skip c y v hj hc1 hc hy hv
      · rw [if_neg hji, if_neg (by intro e; subst e; exact hp hc)] at hu
        exact ho.off j u v hj hp hu hv
  · intro j u v _ hj hjc hu hv
    rw [swap_getElem? hcl hil] at hu hv
    rw [if_pos hc, hy] at hv
    cases hv
    rw [if_neg (by omega), if_neg (by omega)] at hu
    exact ho.off j u y hj (by omega) hu (by rw [hjc]; exact hy)

/-- Nothing to do when no child outranks the element. -/
theorem OrderedAbove.done {α : Type} {higher : α → α → Bool} {h : List α} {i : Nat} (ho : OrderedAbove higher h i)
    (hch : ∀ (j : Nat) (z p : α), 1 ≤ j → (j - 1) / 2 = i → h[j]? = some z → h[i]? = some p → higher z p = false) :
    HeapOrdered higher h := by
  intro j u v hj hu hv
  by_cases hp : (j - 1) / 2 = i
  · exact hch j u v hj hp hu (by rw [← hp]; exact hv)
  · exact ho.off j u v hj hp hu hv

theorem pickChild_spec {α : Type} {higher : α → α → Bool} (wo : WeakOrder higher) (t : TieRule) (d : Nat → Bool)
    (k : Nat) (y z : α) :
    ((pickChild higher t d k y z).1 = false → higher z y = false) ∧
      ((pickChild higher t d k y z).1 = true → higher y z = false) := by
  unfold pickChild
  split
  · next h => exact ⟨fun _ => wo.asymm _ _ h, fun h' => by simp at h'⟩
  · next h =>
    split
    · next h' => exact ⟨fun e => by simp at e, fun _ => wo.asymm _ _ h'⟩
    · next h' => exact ⟨fun _ => by simpa using h', fun _ => by simpa using h⟩

theorem siftDown_ordered {α : Type} {higher : α → α → Bool} (wo : WeakOrder higher) (t : TieRule) (d : Nat → Bool)
    (fuel : Nat) (h : List α) (i k : Nat) (hf : h.length ≤ fuel + i) (ho : OrderedAbove higher h i) :
    HeapOrdered higher (siftDown higher t d fuel h i k).1 := by
  induction fuel generalizing h i k with
  | zero =>
    refine ho.done fun j z p _ _ _ hp => ?_
    have := (List.getElem?_eq_some_iff.1 hp).1
    omega
  | succ n ih =>
    have child : ∀ {j : Nat}, 1 ≤ j → (j - 1) / 2 = i → j = 2 * i + 1 ∨ j = 2 * i + 2 := by omega
    unfold siftDown
    split
    · next x y hx hy hz =>
      split
      · next hyx =>
        refine ih _ _ _ (by simp; omega) (ho.down wo (by omega) (by omega) hx hy hyx ?_)
        intro j u hj hp hu
        obtain rfl | rfl := child hj hp
        · rw [hy] at hu; cases hu
          exact wo.irrefl _
        · simp_all
      · next hyx =>
        refine ho.done fun j u p hj hp hu hpp => ?_
        rw [hx] at hpp; cases hpp
        obtain rfl | rfl := child hj hp
        · rw [hy] at hu; cases hu; simpa using hyx
        · simp_all
    · next x y z hx hy hz =>
      have hs := pickChild_spec wo t d k y z
      split
      · next k' hk =>
        rw [hk] at hs
        have hzy := hs.1 rfl
        split
        · next hyx =>
          refine ih _ _ _ (by simp; omega) (ho.down wo (by omega) (by omega) hx hy hyx ?_)
          intro j u hj hp hu
          obtain rfl | rfl := child hj hp
          · rw [hy] at hu; cases hu; exact wo.irrefl _
          · rw [hz] at hu; cases hu; exact hzy
        · next hyx =>
          refine ho.done fun j u p hj hp hu hpp => ?_
          rw [hx] at hpp; cases hpp
          obtain rfl | rfl := child hj hp
          · rw [hy] at hu; cases hu; simpa using hyx
          · rw [hz] at hu; cases hu
            exact wo.trans _ _ _ hzy (by simpa using hyx)
      · next k' hk =>
        rw [hk] at hs
        have hyz := hs.2 rfl
        split
        · next hzx =>
          refine ih _ _ _ (by simp; omega) (ho.down wo (by omega) (by omega) hx hz hzx ?_)
          intro j u hj hp hu
          obtain rfl | rfl := child hj hp
          · rw [hy] at hu; cases hu; exact hyz
          · rw [hz] at hu; cases hu; exact wo.irrefl _
        · next hzx =>
          refine ho.done fun j u p hj hp hu hpp => ?_
          rw [hx] at hpp; cases hpp
          obtain rfl | rfl := child hj hp
          · rw [hy] at hu; cases hu
            exact wo.trans _ _ _ hyz (by simpa using hzx)
          · rw [hz] at hu; cases hu; simpa using hzx
    · next hno1 hno2 =>
      refine ho.done fun j u p hj hp hu hpp => ?_
      have hl : j < h.length := (List.getElem?_eq_some_iff.1 hu).1
      have h1 : 2 * i + 1 < h.length := by
        obtain rfl | rfl := child hj hp <;> omega
      have e1 := List.getElem?_eq_getElem h1
      cases hz : h[2 * i + 2]? with
      | none => exact absurd hz (by intro e; exact hno1 _ _ hpp e1 e)
      | some z => exact absurd hz (by intro e; exact hno2 _ _ _ hpp e1 e)

/-! ### push and pop -/

theorem heapPush_perm {α : Type} (higher : α → α → Bool) (h : List α) (x : α) :
    (heapPush higher h x).Perm (x :: h) :=
  (siftUp_perm _ _ _ _).trans (List.perm_append_singleton x h)

@[simp] theorem heapPush_length {α : Type} (higher : α → α → Bool) (h : List α) (x : α) :
    (heapPush higher h x).length = h.length + 1 := by
  simpa using (heapPush_perm higher h x).length_eq

/-- PQ.PUSH's body keeps heap order (R175 (a)). -/
theorem heapPush_ordered {α : Type} {higher : α → α → Bool} (wo : WeakOrder higher) {h : List α}
    (ho : HeapOrdered higher h) (x : α) : HeapOrdered higher (heapPush higher h x) := by
  refine siftUp_ordered wo _ _ _ (Nat.le_refl _) (by simp) ⟨?_, ?_⟩
  · intro j u v hj hne hu hv
    have hl : j < h.length := by
      have := (List.getElem?_eq_some_iff.1 hu).1
      simp at this; omega
    rw [List.getElem?_append_left hl] at hu
    rw [List.getElem?_append_left (by omega)] at hv
    exact ho j u v hj hu hv
  · intro j u v _ _ hp hu _
    have := (List.getElem?_eq_some_iff.1 hu).1
    simp at this; omega

/-- In heap order no element outranks the root. -/
theorem HeapOrdered.root {α : Type} {higher : α → α → Bool} (wo : WeakOrder higher) {h : List α}
    (ho : HeapOrdered higher h) {r : α} (hr : h[0]? = some r) (i : Nat) (x : α) (hx : h[i]? = some x) :
    higher x r = false := by
  induction i using Nat.strong_induction_on generalizing x with
  | _ i ih =>
    by_cases hi : i = 0
    · subst hi
      rw [hr] at hx; cases hx
      exact wo.irrefl _
    · have hl : (i - 1) / 2 < h.length := by
        have := (List.getElem?_eq_some_iff.1 hx).1
        omega
      have hp := List.getElem?_eq_getElem hl
      exact wo.trans _ _ _ (ho i x _ (by omega) hx hp) (ih _ (by omega) _ hp)

theorem heapPop_nil {α : Type} (higher : α → α → Bool) (t : TieRule) (d : Nat → Bool) (k : Nat) :
    heapPop higher t d ([] : List α) k = none := rfl

theorem heapPop_cons {α : Type} (higher : α → α → Bool) (t : TieRule) (d : Nat → Bool) (x : α) (l : List α)
    (k : Nat) : ∃ h' k', heapPop higher t d (x :: l) k = some (x, h', k') := ⟨_, _, rfl⟩

/-- The heap swap-and-shrink of a pop: the elements but the root, the root at the hole. -/
theorem swap_dropLast_perm {α : Type} (x : α) (l : List α) :
    (x :: (swap (x :: l) 0 ((x :: l).length - 1)).dropLast).Perm (x :: l) := by
  have hlen : (swap (x :: l) 0 ((x :: l).length - 1)).length = l.length + 1 := by simp
  have hne : swap (x :: l) 0 ((x :: l).length - 1) ≠ [] := by
    intro e; rw [e] at hlen; simp at hlen
  have hlast : (swap (x :: l) 0 ((x :: l).length - 1)).getLast hne = x := by
    have h1 := swap_getElem? (h := x :: l) (i := 0) (j := (x :: l).length - 1) (by simp) (by simp)
      ((x :: l).length - 1)
    rw [if_pos rfl] at h1
    rw [List.getLast_eq_getElem]
    simp only [swap_length]
    exact Option.some.inj ((List.getElem?_eq_getElem _).symm.trans h1)
  have hcat := List.dropLast_append_getLast hne
  rw [hlast] at hcat
  have : (swap (x :: l) 0 ((x :: l).length - 1)).Perm (x :: l) := swap_perm _ _ _
  rw [← hcat] at this
  exact (List.perm_append_singleton x _).symm.trans this

/-- Everything a pop can do (R167, R175): it removes the root and nothing else, and from heap order it leaves heap
order and removes an element that no element left outranks. -/
theorem heapPop_spec {α : Type} {higher : α → α → Bool} {t : TieRule} {d : Nat → Bool} {h : List α} {k : Nat}
    {x : α} {h' : List α} {k' : Nat} (hp : heapPop higher t d h k = some (x, h', k')) :
    h[0]? = some x ∧ (x :: h').Perm h ∧
      (WeakOrder higher → HeapOrdered higher h →
        HeapOrdered higher h' ∧ ∀ y ∈ h', higher y x = false) := by
  cases h with
  | nil => simp [heapPop] at hp
  | cons a l =>
    simp only [heapPop, Option.some.injEq, Prod.mk.injEq] at hp
    obtain ⟨rfl, rfl, -⟩ := hp
    have hperm := ((siftDown_perm higher t d (swap (a :: l) 0 ((a :: l).length - 1)).dropLast.length (swap (a :: l) 0 ((a :: l).length - 1)).dropLast 0 k).cons a).trans
      (swap_dropLast_perm a l)
    refine ⟨rfl, hperm, fun wo ho => ⟨?_, ?_⟩⟩
    · refine siftDown_ordered wo t d _ _ 0 k (by omega) ⟨?_, fun _ _ _ h0 => absurd h0 (by omega)⟩
      intro j u v hj hpj hu hv
      have hjl := (List.getElem?_eq_some_iff.1 hu).1
      simp at hjl
      rw [List.getElem?_dropLast, if_pos (by simp; omega), swap_getElem? (by simp) (by simp),
        if_neg (by simp; omega), if_neg (by omega)] at hu hv
      exact ho j u v hj hu hv
    · intro y hy
      have hmem : y ∈ a :: l := hperm.subset (List.mem_cons_of_mem _ hy)
      obtain ⟨i, hi, rfl⟩ := List.getElem_of_mem hmem
      exact ho.root wo rfl i _ (List.getElem?_eq_getElem hi)

/-- Removing from the heap loses exactly one element. -/
theorem heapPop_length {α : Type} {higher : α → α → Bool} {t : TieRule} {d : Nat → Bool} {h : List α} {k : Nat}
    {x : α} {h' : List α} {k' : Nat} (hp : heapPop higher t d h k = some (x, h', k')) :
    h.length = h'.length + 1 := by
  simpa using (heapPop_spec hp).2.1.length_eq.symm

end Sys2Proof.Machine
end

