-- ==== Sys2Proof/Laws/Tables.lean ====
section
/-! SUPPORT. The laws of a table indexed by symbol: read after write, and the canonical form. -/

namespace Sys2Proof.Machine

variable {β : Type}

@[simp] theorem Table.get?_nil (s : Sym) : Table.get? ([] : Table β) s = none := rfl

theorem Table.get?_cons (k : Sym) (v : β) (t : Table β) (s : Sym) :
    Table.get? ((k, v) :: t) s = if k = s then some v else Table.get? t s := rfl

/-- Reading the symbol just written gives the value written. -/
@[simp] theorem Table.get?_put_same (t : Table β) (s : Sym) (v : β) : Table.get? (Table.put t s v) s = some v := by
  induction t with
  | nil => simp [Table.put, Table.get?]
  | cons x t ih =>
    obtain ⟨k, y⟩ := x
    unfold Table.put
    split
    · simp [Table.get?]
    · split
      · simp [Table.get?]
      · next h => simp [Table.get?, h, ih]

/-- A write leaves every other symbol alone. -/
theorem Table.get?_put_ne (t : Table β) {s r : Sym} (v : β) (h : r ≠ s) :
    Table.get? (Table.put t s v) r = Table.get? t r := by
  induction t with
  | nil => simp [Table.put, Table.get?, h.symm]
  | cons x t ih =>
    obtain ⟨k, y⟩ := x
    unfold Table.put
    split
    · simp [Table.get?, h.symm]
    · split
      · next hk => subst hk; simp [Table.get?, h.symm]
      · simp [Table.get?, ih]

theorem Table.mem_put {t : Table β} {s : Sym} {v : β} {x : Sym × β} (h : x ∈ Table.put t s v) :
    x = (s, v) ∨ x ∈ t := by
  induction t with
  | nil => simpa [Table.put] using h
  | cons y t ih =>
    obtain ⟨k, z⟩ := y
    unfold Table.put at h
    split at h
    · simpa using h
    · split at h
      · simp only [List.mem_cons] at h ⊢; tauto
      · simp only [List.mem_cons] at h ⊢
        rcases h with h | h
        · tauto
        · have := ih h; tauto

/-- A write keeps the canonical form. -/
theorem Table.wf_put {t : Table β} (h : Table.wf t) (s : Sym) (v : β) : Table.wf (Table.put t s v) := by
  induction t with
  | nil => simp [Table.put, Table.wf]
  | cons y t ih =>
    obtain ⟨k, z⟩ := y
    obtain ⟨hk, ht⟩ := List.pairwise_cons.1 h
    unfold Table.put
    split
    · next hlt =>
      refine List.pairwise_cons.2 ⟨?_, h⟩
      intro x hx
      rcases List.mem_cons.1 hx with rfl | hx
      · exact hlt
      · exact Nat.lt_trans hlt (hk x hx)
    · next hlt =>
      split
      · next he => subst he; exact List.pairwise_cons.2 ⟨hk, ht⟩
      · next hne =>
        refine List.pairwise_cons.2 ⟨?_, ih ht⟩
        intro x hx
        rcases Table.mem_put hx with rfl | hx
        · have : k.toNat ≠ s.toNat := fun e => hne (BitVec.eq_of_toNat_eq e)
          show k.toNat < s.toNat
          omega
        · exact hk x hx

theorem TableOk.put {nsym : Nat} {t : Table β} (h : TableOk nsym t) {s : Sym} (hs : s.toNat < nsym) (v : β) :
    TableOk nsym (Table.put t s v) := by
  refine ⟨Table.wf_put h.canonical s v, fun x hx => ?_⟩
  rcases Table.mem_put hx with rfl | hx
  · exact hs
  · exact h.symbols x hx

theorem TableOk.nil (nsym : Nat) : TableOk nsym ([] : Table β) :=
  ⟨List.Pairwise.nil, fun _ h => absurd h (by simp)⟩

/-- A present symbol is a listed one. -/
theorem Table.get?_isSome_iff {t : Table β} {s : Sym} :
    (Table.get? t s).isSome = true ↔ s ∈ t.map Prod.fst := by
  induction t with
  | nil => simp
  | cons x t ih =>
    obtain ⟨k, v⟩ := x
    rw [Table.get?_cons]
    split
    · next h => subst h; simp
    · next h => rw [ih]; simp [Ne.symm h]

/-- There are no more present symbols than symbols. -/
theorem TableOk.length_le {nsym : Nat} {t : Table β} (h : TableOk nsym t) : t.length ≤ nsym := by
  have hnd : (t.map fun x => x.1.toNat).Nodup := by
    rw [List.nodup_iff_pairwise_ne, List.pairwise_map]
    exact h.canonical.imp fun hlt => Nat.ne_of_lt hlt
  have hsub : (t.map fun x => x.1.toNat) ⊆ List.range nsym := by
    intro n hn
    obtain ⟨x, hx, rfl⟩ := List.mem_map.1 hn
    exact List.mem_range.2 (h.symbols x hx)
  simpa using (List.subperm_of_subset hnd hsub).length_le

end Sys2Proof.Machine
end

