-- ==== Sys2Proof/Laws/Forest.lean ====
section
/-! SUPPORT. The greedy build (43_huffman_codec.md R197 to R208): the merge loop keeps a forest of strict binary trees
whose leaves are the present symbols, and the traversal of the last tree records exactly its root-to-leaf paths. -/

namespace Sys2Proof.Machine

theorem pendingHigher_weakOrder : WeakOrder pendingHigher := by
  constructor <;> intros <;> simp_all [pendingHigher] <;> omega

/-! ### A strict binary tree and its place in the arena -/

/-- The trees the arena represents, for the proofs only. -/
inductive Tree where
  | leaf (s : Sym)
  | node (l r : Tree)

/-- The leaf symbols from left to right. -/
def Tree.leaves : Tree → List Sym
  | .leaf s => [s]
  | .node l r => l.leaves ++ r.leaves

/-- The number of nodes. -/
def Tree.size : Tree → Nat
  | .leaf _ => 1
  | .node l r => 1 + l.size + r.size

/-- The leaf a path ends at. -/
def Tree.find : Tree → List Bool → Option Sym
  | .leaf s, [] => some s
  | .leaf _, _ :: _ => none
  | .node _ _, [] => none
  | .node l r, b :: bs => if b then r.find bs else l.find bs

/-- What the traversal records of a tree reached by the path `pre`. -/
def Tree.record : Tree → List Bool → Table (List Bool) → Table (List Bool)
  | .leaf s, pre, t => Table.put t s pre
  | .node l r, pre, t => r.record (pre ++ [true]) (l.record (pre ++ [false]) t)

/-- The arena holds the tree with its root at handle `h`, children at smaller handles. -/
def Rep (nodes : List Node) : Tree → Nat → Prop
  | .leaf s, h => nodes[h]? = some (.leaf s)
  | .node tl tr, h => ∃ l r, nodes[h]? = some (.internal l r) ∧ Rep nodes tl l ∧ Rep nodes tr r

theorem Rep.append {nodes : List Node} {T : Tree} {h : Nat} (hr : Rep nodes T h) (more : List Node) :
    Rep (nodes ++ more) T h := by
  induction T generalizing h with
  | leaf s =>
    have hl := (List.getElem?_eq_some_iff.1 hr).1
    simpa [Rep, List.getElem?_append_left hl] using hr
  | node tl tr ihl ihr =>
    obtain ⟨l, r, hn, h1, h2⟩ := hr
    have hl := (List.getElem?_eq_some_iff.1 hn).1
    exact ⟨l, r, by rw [List.getElem?_append_left hl]; exact hn, ihl h1, ihr h2⟩

theorem Tree.size_leaves (T : Tree) : T.size + 1 = 2 * T.leaves.length := by
  induction T with
  | leaf s => simp [Tree.size, Tree.leaves]
  | node l r ihl ihr => simp [Tree.size, Tree.leaves]; omega

theorem Tree.find_mem {T : Tree} {q : List Bool} {s : Sym} (h : T.find q = some s) : s ∈ T.leaves := by
  induction T generalizing q with
  | leaf r => cases q <;> simp_all [Tree.find, Tree.leaves]
  | node l r ihl ihr =>
    cases q with
    | nil => simp [Tree.find] at h
    | cons b bs =>
      cases b
      · exact List.mem_append_left _ (ihl (by simpa [Tree.find] using h))
      · exact List.mem_append_right _ (ihr (by simpa [Tree.find] using h))

/-- With distinct leaf symbols a symbol has one path. -/
theorem Tree.find_unique {T : Tree} (hnd : T.leaves.Nodup) {q q' : List Bool} {s : Sym} (h : T.find q = some s)
    (h' : T.find q' = some s) : q = q' := by
  induction T generalizing q q' with
  | leaf r => cases q <;> cases q' <;> simp_all [Tree.find]
  | node l r ihl ihr =>
    obtain ⟨hl, hr, hd⟩ := List.nodup_append.1 hnd
    cases q with
    | nil => simp [Tree.find] at h
    | cons b bs =>
      cases q' with
      | nil => simp [Tree.find] at h'
      | cons b' bs' =>
        cases b <;> cases b' <;> simp only [Tree.find, if_true, if_false, Bool.false_eq_true] at h h'
        · rw [ihl hl h h']
        · exact absurd rfl (hd s (Tree.find_mem h) s (Tree.find_mem h'))
        · exact absurd rfl (hd s (Tree.find_mem h') s (Tree.find_mem h))
        · rw [ihr hr h h']

/-- Following a path in the arena is finding it in the tree. -/
theorem Rep.follow_leaf {nodes : List Node} {T : Tree} {h : Nat} (hr : Rep nodes T h) (q : List Bool) (s : Sym) :
    follow nodes h q = some (.leaf s) ↔ T.find q = some s := by
  induction T generalizing h q with
  | leaf r => cases q <;> simp_all [Rep, follow, Tree.find]
  | node tl tr ihl ihr =>
    obtain ⟨l, r, hn, h1, h2⟩ := hr
    cases q with
    | nil => simp [follow, hn, Tree.find]
    | cons b bs =>
      cases b
      · simpa [follow, hn, Tree.find] using ihl h1 bs
      · simpa [follow, hn, Tree.find] using ihr h2 bs

/-! ### The traversal -/

theorem Tree.record_other (T : Tree) (pre : List Bool) (t : Table (List Bool)) {s : Sym} (hs : s ∉ T.leaves) :
    Table.get? (T.record pre t) s = Table.get? t s := by
  induction T generalizing pre t with
  | leaf r => exact Table.get?_put_ne _ _ (by simpa [Tree.leaves] using hs)
  | node l r ihl ihr =>
    simp only [Tree.leaves, List.mem_append, not_or] at hs
    rw [Tree.record, ihr _ _ hs.2, ihl _ _ hs.1]

theorem Tree.record_leaf (T : Tree) (hnd : T.leaves.Nodup) (pre : List Bool) (t : Table (List Bool)) {s : Sym}
    (hs : s ∈ T.leaves) : ∃ q, T.find q = some s ∧ Table.get? (T.record pre t) s = some (pre ++ q) := by
  induction T generalizing pre t with
  | leaf r =>
    obtain rfl : s = r := by simpa [Tree.leaves] using hs
    exact ⟨[], rfl, by simp [Tree.record]⟩
  | node l r ihl ihr =>
    obtain ⟨hl, hr, hd⟩ := List.nodup_append.1 hnd
    rcases List.mem_append.1 hs with hs | hs
    · obtain ⟨q, hq, hg⟩ := ihl hl (pre ++ [false]) t hs
      refine ⟨false :: q, by simpa [Tree.find] using hq, ?_⟩
      rw [Tree.record, Tree.record_other r _ _ (fun h => hd s hs s h rfl), hg]
      simp
    · obtain ⟨q, hq, hg⟩ := ihr hr (pre ++ [true]) (l.record (pre ++ [false]) t) hs
      refine ⟨true :: q, by simpa [Tree.find] using hq, ?_⟩
      rw [Tree.record, hg]
      simp

theorem Tree.record_wf (T : Tree) (pre : List Bool) {t : Table (List Bool)} (h : Table.wf t) :
    Table.wf (T.record pre t) := by
  induction T generalizing pre t with
  | leaf s => exact Table.wf_put h _ _
  | node l r ihl ihr => exact ihr _ (ihl _ h)

/-- The traversal of a subtree records its paths, using one pass for each of its nodes, and meets no symbol twice. -/
theorem traverse_rep {nodes : List Node} {T : Tree} {h : Nat} (hr : Rep nodes T h) (hnd : T.leaves.Nodup)
    (pre : List Bool) (fuel : Nat) (stack : List (Nat × List Bool)) (t : Table (List Bool))
    (hfresh : ∀ s ∈ T.leaves, Table.get? t s = none) :
    traverse nodes (T.size + fuel) ((h, pre) :: stack) t = traverse nodes fuel stack (T.record pre t) := by
  induction T generalizing h pre fuel stack t with
  | leaf s =>
    have hf := hfresh s (by simp [Tree.leaves])
    have hr' : nodes[h]? = some (.leaf s) := hr
    rw [Tree.size, Nat.add_comm]
    simp [traverse, hr', hf, Tree.record]
  | node tl tr ihl ihr =>
    obtain ⟨l, r, hn, h1, h2⟩ := hr
    obtain ⟨hl, hr, hd⟩ := List.nodup_append.1 hnd
    rw [show (Tree.node tl tr).size + fuel = (tl.size + (tr.size + fuel)) + 1 by simp [Tree.size]; omega]
    simp only [traverse, hn]
    rw [ihl h1 hl _ _ _ _ (fun s hs => hfresh s (List.mem_append_left _ hs)),
      ihr h2 hr _ _ _ _ (fun s hs => ?_)]
    · rfl
    · rw [Tree.record_other _ _ _ (fun h => hd s h s hs rfl)]
      exact hfresh s (List.mem_append_right _ hs)

/-! ### The forest under construction -/

/-- The arena and private heap during a build of the symbols of `ft`: the heap is in order and its weights sum to
those of the table; the arena is one leaf for each symbol, in order, then one internal node for each merge; every
handle is either pending or the child of one internal node; the pending trees have the symbols as their leaves. -/
structure ForestOk (ft : Table Long) (f : Forest) : Prop where
  ordered : HeapOrdered pendingHigher f.heap
  total : (f.heap.map Pending.w).sum = (ft.map fun x => x.2.toNat).sum
  arena : ∃ more : List Node, f.nodes = ft.map (fun x => Node.leaf x.1) ++ more ∧
    f.heap.length + more.length = ft.length
  internals : ∀ h : Nat, ft.length ≤ h → h < f.nodes.length →
    ∃ l r, f.nodes[h]? = some (.internal l r) ∧ l < h ∧ r < h
  handles : (f.heap.map Pending.h ++ childHandles f.nodes).Perm (List.range f.nodes.length)
  trees : ∃ es : List (Pending × Tree), (es.map Prod.fst).Perm f.heap ∧
    (∀ e ∈ es, Rep f.nodes e.2 e.1.h) ∧ (es.flatMap fun e => e.2.leaves).Perm (ft.map Prod.fst)

@[simp] theorem childHandles_append (a b : List Node) : childHandles (a ++ b) = childHandles a ++ childHandles b := by
  simp [childHandles]

@[simp] theorem childHandles_leaf (s : Sym) : childHandles [.leaf s] = [] := rfl

@[simp] theorem childHandles_internal (l r : Nat) : childHandles [.internal l r] = [l, r] := rfl

theorem mem_childHandles {nodes : List Node} {c : Nat} (h : c ∈ childHandles nodes) :
    ∃ (g l r : Nat), nodes[g]? = some (.internal l r) ∧ (c = l ∨ c = r) := by
  obtain ⟨n, hn, hc⟩ := List.mem_flatMap.1 h
  obtain ⟨g, hg, rfl⟩ := List.getElem_of_mem hn
  cases hnode : nodes[g] with
  | leaf s => simp [hnode] at hc
  | internal l r => exact ⟨g, l, r, by rw [List.getElem?_eq_getElem hg, hnode], by simpa [hnode] using hc⟩

theorem ForestOk.start (k : Nat) : ForestOk [] ⟨[], [], k⟩ := by
  refine ⟨fun i x p _ hx _ => by simp at hx, rfl, ⟨[], rfl, rfl⟩, fun h _ hl => by simp at hl, ?_, ⟨[], ?_⟩⟩
  · simp [childHandles]
  · simp

/-- Pushing the leaf of the next symbol. -/
theorem ForestOk.push_leaf {ft : Table Long} {f : Forest} (ok : ForestOk ft f)
    (hn : f.nodes = ft.map fun x => Node.leaf x.1) (s : Sym) (w : Long) :
    ForestOk (ft ++ [(s, w)])
      { f with
        nodes := f.nodes ++ [.leaf s]
        heap := heapPush pendingHigher f.heap ⟨w.toNat, f.nodes.length⟩ } := by
  have hp := heapPush_perm pendingHigher f.heap ⟨w.toNat, f.nodes.length⟩
  have hlen : f.nodes.length = ft.length := by rw [hn, List.length_map]
  obtain ⟨more, hmore, hcount⟩ := ok.arena
  have hm0 : more = [] := by
    rw [hn] at hmore
    simpa using hmore
  subst hm0
  refine ⟨heapPush_ordered pendingHigher_weakOrder ok.ordered _, ?_, ⟨[], ?_, ?_⟩, ?_, ?_, ?_⟩
  · rw [(hp.map Pending.w).sum_eq]
    simp [ok.total]; omega
  · simp [hn]
  · simpa using hcount
  · intro h h1 h2
    simp at h1 h2
    omega
  · simp only [childHandles_append, childHandles_leaf, List.append_nil, List.length_append, List.length_singleton]
    rw [List.range_succ]
    refine ((hp.map Pending.h).append_right _).trans ?_
    simp only [List.map_cons, List.cons_append]
    exact (ok.handles.cons _).trans (List.perm_append_singleton _ _).symm
  · obtain ⟨es, h1, h2, h3⟩ := ok.trees
    refine ⟨(⟨w.toNat, f.nodes.length⟩, .leaf s) :: es, ?_, ?_, ?_⟩
    · exact (h1.cons _).trans hp.symm
    · intro e he
      rcases List.mem_cons.1 he with rfl | he
      · simp [Rep]
      · exact (h2 e he).append _
    · simp only [List.flatMap_cons, Tree.leaves, List.map_append, List.map_cons, List.map_nil]
      exact (h3.cons s).trans (List.perm_append_singleton _ _).symm

/-- After the leaves are pushed the forest is one leaf for each symbol (R203). -/
theorem ForestOk.push_leaves {t ft : Table Long} {f : Forest} (ok : ForestOk ft f)
    (hn : f.nodes = ft.map fun x => Node.leaf x.1) : ForestOk (ft ++ t) (pushLeaves t f) := by
  induction t generalizing ft f with
  | nil => simpa [pushLeaves] using ok
  | cons x t ih =>
    obtain ⟨s, w⟩ := x
    have := ih (ok.push_leaf hn s w) (by simp [hn])
    simpa [pushLeaves] using this

/-- Splitting off the element of a mapped list that a permutation puts first. -/
theorem perm_map_cons {α β : Type} {f : α → β} {l : List α} {x : β} {rest : List β} (h : (l.map f).Perm (x :: rest)) :
    ∃ e es, l.Perm (e :: es) ∧ f e = x ∧ (es.map f).Perm rest := by
  obtain ⟨e, he, rfl⟩ := List.mem_map.1 (h.symm.subset (List.mem_cons_self ..))
  obtain ⟨l1, l2, rfl⟩ := List.append_of_mem he
  refine ⟨e, l1 ++ l2, List.perm_middle, rfl, ?_⟩
  have : (List.map f (e :: (l1 ++ l2))).Perm (f e :: rest) := (List.perm_middle.map f).symm.trans h
  rw [List.map_cons] at this
  exact this.cons_inv

/-- What one merge takes and makes (R205): the two entries popped, the node made of their handles, one way round or
the other, and its entry with the summed weight. -/
structure Merged (f f' : Forest) (x y : Pending) (rest : List Pending) (l r : Nat) : Prop where
  popped : f.heap.Perm (x :: y :: rest)
  sides : (l = x.h ∧ r = y.h) ∨ (l = y.h ∧ r = x.h)
  nodes : f'.nodes = f.nodes ++ [.internal l r]
  heap : f'.heap.Perm (⟨x.w + y.w, f.nodes.length⟩ :: rest)
  lowest : HeapOrdered pendingHigher f.heap → HeapOrdered pendingHigher f'.heap ∧ x.w ≤ y.w ∧
    ∀ z ∈ rest, y.w ≤ z.w

/-- Everything one pass of the merge loop can do; it can be made whenever two entries are pending. -/
theorem mergeOnce_spec (p : Params) (d : Nat → Bool) (f : Forest) (h2 : 2 ≤ f.heap.length) :
    ∃ f' x y rest l r, mergeOnce p d f = some f' ∧ Merged f f' x y rest l r ∧
      (p.hcFirst = .left → l = x.h ∧ r = y.h) ∧ (p.hcFirst = .right → l = y.h ∧ r = x.h) := by
  obtain ⟨nodes, heap, k⟩ := f
  match heap, h2 with
  | a :: b :: l, _ =>
    obtain ⟨h1, k1, e1⟩ := heapPop_cons pendingHigher p.hcTie d a (b :: l) k
    obtain ⟨r1, p1, o1⟩ := heapPop_spec e1
    have hl1 := heapPop_length e1
    match h1, hl1 with
    | c :: h1, _ =>
      obtain ⟨h2, k2, e2⟩ := heapPop_cons pendingHigher p.hcTie d c h1 k1
      obtain ⟨r2, p2, o2⟩ := heapPop_spec e2
      have hperm : (a :: b :: l).Perm (a :: c :: h2) := p1.symm.trans (p2.symm.cons a)
      have hlow : HeapOrdered pendingHigher (a :: b :: l) → HeapOrdered pendingHigher h2 ∧ a.w ≤ c.w ∧
          ∀ z ∈ h2, c.w ≤ z.w := by
        intro ho
        obtain ⟨ho1, hm1⟩ := o1 pendingHigher_weakOrder ho
        obtain ⟨ho2, hm2⟩ := o2 pendingHigher_weakOrder ho1
        have := hm1 c (by simp)
        simp only [pendingHigher, decide_eq_false_iff_not, Nat.not_lt] at this
        refine ⟨ho2, this, fun z hz => ?_⟩
        have := hm2 z hz
        simpa [pendingHigher] using this
      cases hpk : pickRight p.hcFirst d k2 with
      | mk sw k3 =>
        cases sw
        · refine ⟨_, a, c, h2, a.h, c.h, by simp [mergeOnce, e1, e2, placeChildren, hpk]; rfl, ?_⟩
          exact ⟨⟨hperm, .inl ⟨rfl, rfl⟩, rfl, heapPush_perm _ _ _, fun ho =>
            ⟨heapPush_ordered pendingHigher_weakOrder (hlow ho).1 _, (hlow ho).2⟩⟩, fun _ => ⟨rfl, rfl⟩,
            fun hr => by simp [pickRight, hr] at hpk⟩
        · refine ⟨_, a, c, h2, c.h, a.h, by simp [mergeOnce, e1, e2, placeChildren, hpk]; rfl, ?_⟩
          exact ⟨⟨hperm, .inr ⟨rfl, rfl⟩, rfl, heapPush_perm _ _ _, fun ho =>
            ⟨heapPush_ordered pendingHigher_weakOrder (hlow ho).1 _, (hlow ho).2⟩⟩,
            fun hl => by simp [pickRight, hl] at hpk, fun _ => ⟨rfl, rfl⟩⟩

/-- A merge keeps the forest sound and leaves one entry less. -/
theorem ForestOk.merge {ft : Table Long} {f f' : Forest} {x y : Pending} {rest : List Pending} {l r : Nat}
    (ok : ForestOk ft f) (m : Merged f f' x y rest l r) :
    ForestOk ft f' ∧ f'.heap.length + 1 = f.heap.length := by
  have hlen' : f'.heap.length = rest.length + 1 := by simpa using m.heap.length_eq
  have hlen : f.heap.length = rest.length + 2 := by simpa using m.popped.length_eq
  have hn' : f'.nodes.length = f.nodes.length + 1 := by simp [m.nodes]
  have hmem : ∀ z ∈ f.heap, z.h < f.nodes.length := by
    intro z hz
    have : z.h ∈ List.range f.nodes.length :=
      ok.handles.subset (List.mem_append_left _ (List.mem_map_of_mem hz))
    simpa using this
  have hx : x.h < f.nodes.length := hmem x (m.popped.symm.subset (by simp))
  have hy : y.h < f.nodes.length := hmem y (m.popped.symm.subset (by simp))
  refine ⟨⟨(m.lowest ok.ordered).1, ?_, ?_, ?_, ?_, ?_⟩, by omega⟩
  · have h1 := (m.heap.map Pending.w).sum_eq
    have h2 := (m.popped.map Pending.w).sum_eq
    have h3 := ok.total
    simp at h1 h2
    omega
  · obtain ⟨more, hm, hc⟩ := ok.arena
    exact ⟨more ++ [.internal l r], by rw [m.nodes, hm, List.append_assoc], by simp; omega⟩
  · intro h h1 h2
    by_cases hh : h < f.nodes.length
    · obtain ⟨l', r', hn, hl, hr⟩ := ok.internals h h1 hh
      exact ⟨l', r', by rw [m.nodes, List.getElem?_append_left hh]; exact hn, hl, hr⟩
    · obtain rfl : h = f.nodes.length := by omega
      refine ⟨l, r, by simp [m.nodes], ?_, ?_⟩ <;> rcases m.sides with ⟨rfl, rfl⟩ | ⟨rfl, rfl⟩ <;> assumption
  · rw [hn', List.range_succ, m.nodes, childHandles_append, childHandles_internal]
    have hlr : [l, r].Perm [x.h, y.h] := by
      rcases m.sides with ⟨rfl, rfl⟩ | ⟨rfl, rfl⟩
      · exact List.Perm.refl _
      · exact List.Perm.swap _ _ _
    have h1 : (f'.heap.map Pending.h).Perm (f.nodes.length :: rest.map Pending.h) := by
      simpa using m.heap.map Pending.h
    have h2 : (f.heap.map Pending.h).Perm (x.h :: y.h :: rest.map Pending.h) := by
      simpa using m.popped.map Pending.h
    have h3 : (x.h :: y.h :: rest.map Pending.h ++ childHandles f.nodes).Perm (List.range f.nodes.length) :=
      (h2.symm.append_right _).trans ok.handles
    refine (h1.append (hlr.append_left _)).trans ?_
    refine List.Perm.trans ?_ (List.perm_append_singleton _ _).symm
    rw [List.cons_append]
    refine List.Perm.cons _ (List.Perm.trans ?_ h3)
    have : (rest.map Pending.h ++ (childHandles f.nodes ++ [x.h, y.h])).Perm
        ([x.h, y.h] ++ (rest.map Pending.h ++ childHandles f.nodes)) := by
      rw [← List.append_assoc]
      exact List.perm_append_comm
    simpa using this
  · obtain ⟨es, h1, h2, h3⟩ := ok.trees
    obtain ⟨ex, es1, q1, hex, g1⟩ := perm_map_cons (h1.trans m.popped)
    obtain ⟨ey, es2, q2, hey, g2⟩ := perm_map_cons g1
    have hes : es.Perm (ex :: ey :: es2) := q1.trans (q2.cons ex)
    have rx : Rep f.nodes ex.2 x.h := hex ▸ h2 ex (hes.symm.subset (by simp))
    have ry : Rep f.nodes ey.2 y.h := hey ▸ h2 ey (hes.symm.subset (by simp))
    have hlv : (ex.2.leaves ++ ey.2.leaves ++ es2.flatMap fun e => e.2.leaves).Perm (ft.map Prod.fst) := by
      have := (hes.flatMap_right fun e => e.2.leaves).symm.trans h3
      simpa [List.append_assoc] using this
    have hnew : f'.nodes[f.nodes.length]? = some (.internal l r) := by simp [m.nodes]
    have hold : ∀ e ∈ es2, Rep f'.nodes e.2 e.1.h := by
      intro e he
      rw [m.nodes]
      exact (h2 e (hes.symm.subset (by simp [he]))).append _
    rcases m.sides with ⟨rfl, rfl⟩ | ⟨rfl, rfl⟩
    · refine ⟨(⟨x.w + y.w, f.nodes.length⟩, .node ex.2 ey.2) :: es2, ?_, ?_, ?_⟩
      · simpa using (g2.cons _).trans m.heap.symm
      · intro e he
        rcases List.mem_cons.1 he with rfl | he
        · exact ⟨_, _, hnew, m.nodes ▸ rx.append _, m.nodes ▸ ry.append _⟩
        · exact hold e he
      · simpa [Tree.leaves] using hlv
    · refine ⟨(⟨x.w + y.w, f.nodes.length⟩, .node ey.2 ex.2) :: es2, ?_, ?_, ?_⟩
      · simpa using (g2.cons _).trans m.heap.symm
      · intro e he
        rcases List.mem_cons.1 he with rfl | he
        · exact ⟨_, _, hnew, m.nodes ▸ ry.append _, m.nodes ▸ rx.append _⟩
        · exact hold e he
      · simp only [List.flatMap_cons, Tree.leaves]
        exact (List.perm_append_comm.append_right _).trans hlv

/-- The merge loop ends with one entry pending (R205). -/
theorem mergeAll_ok (p : Params) (d : Nat → Bool) {ft : Table Long} (fuel : Nat) {f : Forest} (ok : ForestOk ft f)
    (h1 : 1 ≤ f.heap.length) (hf : f.heap.length ≤ fuel + 1) :
    ForestOk ft (mergeAll p d fuel f) ∧ (mergeAll p d fuel f).heap.length = 1 := by
  induction fuel generalizing f with
  | zero => exact ⟨ok, by simp only [mergeAll]; omega⟩
  | succ n ih =>
    unfold mergeAll
    split
    · next h2 =>
      obtain ⟨f', x, y, rest, l, r, he, m, -⟩ := mergeOnce_spec p d f h2
      obtain ⟨ok', hl⟩ := ok.merge m
      rw [he]
      exact ih ok' (by omega) (by omega)
    · exact ⟨ok, by omega⟩

theorem buildForest_ok (p : Params) (d : Nat → Bool) {ft : Table Long} (hne : ft ≠ []) (k : Nat) :
    ForestOk ft (buildForest p d ft k) ∧ (buildForest p d ft k).heap.length = 1 := by
  have ok : ForestOk ft (pushLeaves ft ⟨[], [], k⟩) := by
    simpa using (ForestOk.start k).push_leaves (t := ft) rfl
  have hpos : 0 < ft.length := List.length_pos_iff.2 hne
  have hlen : ∀ (t : Table Long) (f : Forest), (pushLeaves t f).heap.length = f.heap.length + t.length := by
    intro t
    induction t with
    | nil => intro f; rfl
    | cons x t ih => intro f; obtain ⟨s, w⟩ := x; simp [pushLeaves, ih]; omega
  have := hlen ft ⟨[], [], k⟩
  simp at this
  exact mergeAll_ok p d _ ok (by omega) (by omega)

/-! ### The codec -/

/-- A forest with one entry pending is a tree whose traversal gives a built codec (R208). -/
theorem ForestOk.codec {nsym : Nat} {ft : Table Long} {f : Forest} (ok : ForestOk ft f) (hft : TableOk nsym ft)
    {e : Pending} (he : f.heap = [e]) :
    ∃ t, traverse f.nodes f.nodes.length [(e.h, [])] [] = some t ∧ e.h = 2 * ft.length - 2 ∧
      CodecBuilt nsym ft.length f.nodes t ∧
      ∀ s : Sym, (Table.get? t s).isSome = (Table.get? ft s).isSome := by
  obtain ⟨more, harena, hcount⟩ := ok.arena
  have hmore : more.length + 1 = ft.length := by simp [he] at hcount; omega
  have hsize : f.nodes.length = 2 * ft.length - 1 := by simp [harena]; omega
  have hleaf : ∀ (h : Nat) (x : Sym × Long), ft[h]? = some x → f.nodes[h]? = some (.leaf x.1) := by
    intro h x hx
    have hl := (List.getElem?_eq_some_iff.1 hx).1
    rw [harena, List.getElem?_append_left (by simpa using hl)]
    simp [hx]
  have hleaf' : ∀ (h : Nat) (s : Sym), f.nodes[h]? = some (.leaf s) → ∃ w, ft[h]? = some (s, w) := by
    intro h s hs
    by_cases hl : h < ft.length
    · have := hleaf h _ (List.getElem?_eq_getElem hl)
      rw [hs] at this
      simp only [Option.some.injEq, Node.leaf.injEq] at this
      exact ⟨ft[h].2, by rw [List.getElem?_eq_getElem hl, this]⟩
    · have hl2 := (List.getElem?_eq_some_iff.1 hs).1
      obtain ⟨l, r, hn, -⟩ := ok.internals h (by omega) hl2
      rw [hs] at hn
      cases hn
  -- the root
  have hroot : e.h = 2 * ft.length - 2 := by
    have hmem : 2 * ft.length - 2 ∈ f.heap.map Pending.h ++ childHandles f.nodes :=
      ok.handles.symm.subset (by rw [hsize]; exact List.mem_range.2 (by omega))
    rcases List.mem_append.1 hmem with h | h
    · simpa [he, eq_comm] using h
    · obtain ⟨g, l, r, hg, hc⟩ := mem_childHandles h
      have hgl := (List.getElem?_eq_some_iff.1 hg).1
      have hgm : ft.length ≤ g := by
        by_contra hlt
        have := hleaf g _ (List.getElem?_eq_getElem (by omega))
        rw [hg] at this
        cases this
      obtain ⟨l', r', hn, h1, h2⟩ := ok.internals g hgm hgl
      rw [hg] at hn
      cases hn
      omega
  -- the tree
  obtain ⟨es, h1, h2, h3⟩ := ok.trees
  rw [he] at h1
  have hes1 : es.length = 1 := by simpa using h1.length_eq
  obtain ⟨⟨e', T⟩, rfl⟩ := List.length_eq_one_iff.1 hes1
  obtain rfl : e' = e := by simpa using h1
  have hrep : Rep f.nodes T e'.h := h2 (e', T) (List.mem_singleton_self _)
  have hlv : T.leaves.Perm (ft.map Prod.fst) := by simpa using h3
  have hnd : T.leaves.Nodup := by
    refine hlv.nodup_iff.2 ?_
    rw [List.nodup_iff_pairwise_ne, List.pairwise_map]
    exact hft.canonical.imp fun hlt he => absurd (congrArg BitVec.toNat he) (Nat.ne_of_lt hlt)
  have hsz : f.nodes.length = T.size + 0 := by
    have h4 := T.size_leaves
    have h5 := hlv.length_eq
    simp at h5
    omega
  have htr : traverse f.nodes f.nodes.length [(e'.h, [])] [] = some (T.record [] []) := by
    rw [hsz, traverse_rep hrep hnd [] 0 [] [] (fun _ _ => rfl)]
    rfl
  have hget : ∀ s, (Table.get? (T.record [] []) s).isSome = true ↔ s ∈ T.leaves := by
    intro s
    constructor
    · intro h
      by_contra hs
      rw [Tree.record_other T [] [] hs] at h
      simp at h
    · intro hs
      obtain ⟨q, -, hg⟩ := T.record_leaf hnd [] [] hs
      simp [hg]
  refine ⟨T.record [] [], htr, hroot, ?_, ?_⟩
  · refine ⟨by omega, hft.length_le, hsize, ?_, ?_, ?_, ?_, ?_, ?_, T.record_wf [] List.Pairwise.nil⟩
    · intro h hl
      exact ⟨_, hleaf h _ (List.getElem?_eq_getElem hl), hft.symbols _ (List.getElem_mem hl)⟩
    · intro g h s t hgh hs ht
      obtain ⟨w, hw⟩ := hleaf' g s hs
      obtain ⟨v, hv⟩ := hleaf' h t ht
      obtain ⟨hg, eg⟩ := List.getElem?_eq_some_iff.1 hw
      obtain ⟨hh, eh⟩ := List.getElem?_eq_some_iff.1 hv
      have := List.pairwise_iff_getElem.1 hft.canonical g h hg hh hgh
      rw [eg, eh] at this
      exact this
    · intro h hm hl
      exact ok.internals h hm (by omega)
    · have := ok.handles
      rw [he, hsize] at this
      simpa [hroot] using this
    · intro s cw
      rw [← hroot, hrep.follow_leaf]
      constructor
      · intro h
        have hs : s ∈ T.leaves := (hget s).1 (by simp [h])
        obtain ⟨q, hq, hg⟩ := T.record_leaf hnd [] [] hs
        rw [h] at hg
        simp at hg
        rw [hg]; exact hq
      · intro h
        obtain ⟨q, hq, hg⟩ := T.record_leaf hnd [] [] (Tree.find_mem h)
        rw [hg, Tree.find_unique hnd h hq]
        simp
    · intro s
      rw [hget, hlv.mem_iff]
      constructor
      · intro hs
        obtain ⟨x, hx, rfl⟩ := List.mem_map.1 hs
        obtain ⟨h, hl, rfl⟩ := List.getElem_of_mem hx
        exact ⟨h, hleaf h _ (List.getElem?_eq_getElem hl)⟩
      · rintro ⟨h, hs⟩
        obtain ⟨w, hw⟩ := hleaf' h s hs
        exact List.mem_map.2 ⟨_, List.mem_of_getElem? hw, rfl⟩
  · intro s
    rw [Bool.eq_iff_iff, hget, hlv.mem_iff, Table.get?_isSome_iff]

/-- Everything a build of a table with a present symbol can do, for every draw function (R197 to R208): it always
succeeds, with a codec of exactly the present symbols whose root is the last handle. -/
theorem buildCodec_spec (p : Params) (d : Nat → Bool) {nsym : Nat} {ft : Table Long} (hft : TableOk nsym ft)
    (hne : ft ≠ []) (k : Nat) :
    ∃ c, buildCodec p d ft k = some c ∧ c.root = 2 * ft.length - 2 ∧ CodecBuilt nsym ft.length c.nodes c.cwt ∧
      ∀ s : Sym, (Table.get? c.cwt s).isSome = (Table.get? ft s).isSome := by
  obtain ⟨ok, hl⟩ := buildForest_ok p d hne k
  obtain ⟨e, he⟩ := List.length_eq_one_iff.1 hl
  obtain ⟨t, ht, hroot, hbuilt, hpres⟩ := ok.codec hft he
  obtain ⟨h', k', hpop⟩ := heapPop_cons pendingHigher p.hcTie d e [] (buildForest p d ft k).k
  refine ⟨⟨(buildForest p d ft k).nodes, t, e.h, k'⟩, ?_, hroot, hbuilt, hpres⟩
  simp only [buildCodec, he, hpop, ht]

end Sys2Proof.Machine
end

