-- ==== Sys2Proof/Laws/Codec.lean ====
section
/-! SUPPORT. The lookup of codewords and the walk of the tree (43_huffman_codec.md R220, R225) on a built codec. -/

namespace Sys2Proof.Machine

/-- A handle that names a node reads as that node. -/
theorem nodeAt_of_getElem? {nodes : List Node} {h : Nat} {n : Node} (hn : nodes[h]? = some n) : nodeAt nodes h = n := by
  simp [nodeAt, List.getD_eq_getElem?_getD, hn]

/-- A path that ends at a leaf steers the walk there, and the walk stops with the bits after it. -/
theorem walk_of_follow {nodes : List Node} {cw rest : List Bool} {h : Nat} {s : Sym}
    (hf : follow nodes h cw = some (.leaf s)) : walk nodes (cw ++ rest) h = .leaf s rest := by
  induction cw generalizing h with
  | nil =>
    have hn : nodes[h]? = some (.leaf s) := hf
    cases rest <;> simp [walk, nodeAt_of_getElem? hn]
  | cons b bs ih =>
    cases hn : nodes[h]? with
    | none => simp [follow, hn] at hf
    | some n =>
      cases n with
      | leaf r => simp [follow, hn] at hf
      | internal l r =>
        simp only [follow, hn] at hf
        simp only [List.cons_append, walk, nodeAt_of_getElem? hn]
        exact ih hf

/-- A walk along bits that a path to a leaf goes on from runs out of bits. -/
theorem walk_truncated_of_follow {nodes : List Node} {h : Nat} {bits tail : List Bool} {x : Sym}
    (hf : follow nodes h (bits ++ tail) = some (.leaf x)) (ht : tail ≠ []) : walk nodes bits h = .truncated := by
  induction bits generalizing h with
  | nil =>
    cases tail with
    | nil => exact (ht rfl).elim
    | cons b bs =>
      simp only [List.nil_append, follow] at hf
      split at hf
      · next hn => simp [walk, nodeAt_of_getElem? hn]
      · cases hf
      · cases hf
  | cons b bs ih =>
    simp only [List.cons_append, follow] at hf
    split at hf
    · next hn =>
      simp only [walk, nodeAt_of_getElem? hn]
      exact ih hf
    · cases hf
    · cases hf

/-- A path to a leaf goes on to no other leaf. -/
theorem follow_append_leaf {nodes : List Node} {h : Nat} {p q : List Bool} {x y : Sym}
    (h1 : follow nodes h p = some (.leaf x)) (h2 : follow nodes h (p ++ q) = some (.leaf y)) : q = [] ∧ x = y := by
  induction p generalizing h with
  | nil =>
    have hn : nodes[h]? = some (.leaf x) := h1
    cases q with
    | nil => simpa [follow, hn] using h2
    | cons b bs => simp [follow, hn] at h2
  | cons b bs ih =>
    simp only [List.cons_append, follow] at h1 h2
    split at h1
    · next hn =>
      simp only [hn] at h2
      exact ih h1 h2
    · cases h1
    · cases h1

/-- A handle of a built arena names a leaf of a symbol below NSYM, or an internal node with handles below it. -/
theorem CodecBuilt.node {nsym m : Nat} {nodes : List Node} {cwt : Table (List Bool)} (c : CodecBuilt nsym m nodes cwt)
    {h : Nat} (hl : h < nodes.length) :
    (∃ s, nodes[h]? = some (.leaf s) ∧ s.toNat < nsym) ∨
      ∃ l r, nodes[h]? = some (.internal l r) ∧ l < h ∧ r < h := by
  by_cases hm : h < m
  · exact .inl (c.leaves h hm)
  · exact .inr (c.internals h (by omega) (by rw [← c.size]; exact hl))

/-- A walk from a handle of a built arena ends at a leaf, having used up the bits before the rest, or for want of a
bit. -/
theorem CodecBuilt.walk_spec {nsym m : Nat} {nodes : List Node} {cwt : Table (List Bool)}
    (c : CodecBuilt nsym m nodes cwt) (bits : List Bool) {h : Nat} (hl : h < nodes.length) :
    walk nodes bits h = .truncated ∨
      ∃ s rest used, walk nodes bits h = .leaf s rest ∧ bits = used ++ rest ∧ s.toNat < nsym ∧
        follow nodes h used = some (.leaf s) := by
  induction bits generalizing h with
  | nil =>
    rcases c.node hl with ⟨s, hn, hs⟩ | ⟨l, r, hn, -, -⟩
    · exact .inr ⟨s, [], [], by simp [walk, nodeAt_of_getElem? hn], rfl, hs, by simp [follow, hn]⟩
    · exact .inl (by simp [walk, nodeAt_of_getElem? hn])
  | cons b bs ih =>
    rcases c.node hl with ⟨s, hn, hs⟩ | ⟨l, r, hn, h1, h2⟩
    · exact .inr ⟨s, b :: bs, [], by simp [walk, nodeAt_of_getElem? hn], rfl, hs, by simp [follow, hn]⟩
    · have hb : (if b then r else l) < nodes.length := by split <;> omega
      rcases ih hb with h | ⟨s, rest, used, h, he, hs, hf⟩
      · exact .inl (by simpa [walk, nodeAt_of_getElem? hn] using h)
      · exact .inr ⟨s, rest, b :: used, by simpa [walk, nodeAt_of_getElem? hn] using h, by simp [he], hs, by
          simpa [follow, hn] using hf⟩

/-- The root is a handle of the arena. -/
theorem CodecBuilt.root_lt {nsym m : Nat} {nodes : List Node} {cwt : Table (List Bool)}
    (c : CodecBuilt nsym m nodes cwt) : nodes.length - 1 < nodes.length := by
  have := c.size
  have := c.some_symbol
  omega

/-- The root is handle `2m − 2`. -/
theorem CodecBuilt.root_eq {nsym m : Nat} {nodes : List Node} {cwt : Table (List Bool)}
    (c : CodecBuilt nsym m nodes cwt) : nodes.length - 1 = 2 * m - 2 := by
  have := c.size
  omega

/-- Everything the decoding of `n` symbols can do on a built codec: run out of bits, or give `n` symbols below NSYM,
having used up the bits before the rest (R225). -/
theorem CodecBuilt.decodeSyms_spec {nsym m : Nat} {nodes : List Node} {cwt : Table (List Bool)}
    (c : CodecBuilt nsym m nodes cwt) (n : Nat) (bits : List Bool) :
    decodeSyms nodes (nodes.length - 1) n bits = .truncated ∨
      ∃ out rest used, decodeSyms nodes (nodes.length - 1) n bits = .symbols out rest ∧ bits = used ++ rest ∧
        out.length = n ∧ ∀ s ∈ out, s.toNat < nsym := by
  induction n generalizing bits with
  | zero => exact .inr ⟨[], bits, [], rfl, rfl, rfl, by simp⟩
  | succ n ih =>
    rcases c.walk_spec bits c.root_lt with h | ⟨s, rest, used, h, he, hs, -⟩
    · exact .inl (by simp [decodeSyms, h])
    · rcases ih rest with h' | ⟨out, rest', used', h', he', hl, ho⟩
      · exact .inl (by simp [decodeSyms, h, h'])
      · refine .inr ⟨s :: out, rest', used ++ used', by simp [decodeSyms, h, h'], by simp [he, he'], by simp [hl], ?_⟩
        intro x hx
        rcases List.mem_cons.1 hx with rfl | hx
        · exact hs
        · exact ho x hx

/-- Decoding the codewords of a sequence laid end to end gives the sequence back, whatever follows them. -/
theorem CodecBuilt.decode_encode {nsym m : Nat} {nodes : List Node} {cwt : Table (List Bool)}
    (c : CodecBuilt nsym m nodes cwt) (syms : List Sym) {out : List Bool} (he : encodeSyms cwt syms = some out)
    (rest : List Bool) : decodeSyms nodes (nodes.length - 1) syms.length (out ++ rest) = .symbols syms rest := by
  induction syms generalizing out with
  | nil => cases he; rfl
  | cons s ss ih =>
    simp only [encodeSyms] at he
    split at he
    · next cw out' hcw ho =>
      cases he
      have hf := (c.codeword s cw).1 hcw
      rw [← c.root_eq] at hf
      simp [decodeSyms, List.append_assoc, walk_of_follow hf, ih ho]
    · cases he

/-- The codewords of a sequence exist exactly when every symbol has one (R220). -/
theorem encodeSyms_isSome {cwt : Table (List Bool)} {syms : List Sym} :
    (encodeSyms cwt syms).isSome = true ↔ ∀ s ∈ syms, (Table.get? cwt s).isSome = true := by
  induction syms with
  | nil => simp [encodeSyms]
  | cons s ss ih =>
    rw [List.forall_mem_cons, ← ih]
    simp only [encodeSyms]
    split
    · next h1 h2 => simp [h1, h2]
    · next hno =>
      cases h1 : Table.get? cwt s with
      | none => simp
      | some cw =>
        cases h2 : encodeSyms cwt ss with
        | none => simp
        | some o => exact absurd h2 (hno _ _ h1)

/-- The codewords of a sequence, given one by one, laid end to end. -/
theorem encodeSyms_of_map {cwt : Table (List Bool)} {syms : List Sym} {cws : List (List Bool)}
    (h : syms.map (Table.get? cwt) = cws.map some) : encodeSyms cwt syms = some cws.flatten := by
  induction syms generalizing cws with
  | nil => cases cws <;> simp_all [encodeSyms]
  | cons x xs ih =>
    cases cws with
    | nil => simp at h
    | cons c cs =>
      simp only [List.map_cons, List.cons.injEq] at h
      simp [encodeSyms, h.1, ih h.2]

end Sys2Proof.Machine
end

