-- ==== Sys2Proof/Laws/Decode.lean ====
section
/-! SUPPORT. The command word and its fields: putting fields together and splitting them again are inverse
(30_encoding.md R91), and what the row of an opcode is. -/

namespace Sys2Proof

/-- The word of a field list, split again, gives the fields back. -/
@[simp] theorem Fields.ofWord_toWord (f : Fields) : Fields.ofWord f.toWord = f := by
  obtain ⟨op, a, b, s, imm⟩ := f
  simp only [Fields.ofWord, Fields.toWord, Fields.mk.injEq]
  refine ⟨?_, ?_, ?_, ?_, ?_⟩ <;>
  · apply BitVec.eq_of_getLsbD_eq
    intro i hi
    simp only [BitVec.getLsbD_extractLsb', BitVec.getLsbD_append, hi, decide_true, Bool.true_and]
    have h8 : ∀ n : Nat, 8 + n - 8 = n := by omega
    have h12 : ∀ n : Nat, 12 + n - 8 - 4 = n := by omega
    have h16 : ∀ n : Nat, 16 + n - 8 - 4 - 4 = n := by omega
    have h32 : ∀ n : Nat, 32 + n - 8 - 4 - 4 - 16 = n := by omega
    first
      | (rw [if_pos (by omega)]; simp)
      | (rw [if_neg (by omega), if_pos (by omega), h8])
      | (rw [if_neg (by omega), if_neg (by omega), if_pos (by omega), h12])
      | (rw [if_neg (by omega), if_neg (by omega), if_neg (by omega), if_pos (by omega), h16])
      | (rw [if_neg (by omega), if_neg (by omega), if_neg (by omega), if_neg (by omega), h32])

/-- A word is the word of its own fields: no bit of it belongs to no field. -/
@[simp] theorem Fields.toWord_ofWord (w : PortWord) : (Fields.ofWord w).toWord = w := by
  apply BitVec.eq_of_getLsbD_eq
  intro i hi
  simp only [Fields.ofWord, Fields.toWord, BitVec.getLsbD_append, BitVec.getLsbD_extractLsb']
  split
  · next h => simp [h]
  · split
    · next h1 h2 => simp [h2]; congr 1; omega
    · split
      · next h1 h2 h3 => simp [h3]; congr 1; omega
      · split
        · next h1 h2 h3 h4 => simp [h4]; congr 1; omega
        · next h1 h2 h3 h4 =>
          have : i - 8 - 4 - 4 - 16 < 32 := by omega
          simp [this]; congr 1; omega

/-- Decoding looks at the fields alone. -/
theorem decode_toWord (p : Params) (f : Fields) : decode p f.toWord = decodeFields p f := by
  simp [decode]

/-- The row of an opcode is in the map and has that opcode. -/
theorem rowOf_some {op : BitVec 8} {r : OpRow} (h : rowOf op = some r) : r ∈ opcodeMap ∧ r.op = op :=
  ⟨List.mem_of_find?_eq_some h, by simpa using List.find?_some h⟩

/-- The checks of R97 to R100 on an opcode with a row, said at once: they pass, and the command is the row's, or they
fail by name. -/
theorem decodeFields_of_row (p : Params) {f : Fields} {r : OpRow} (h : rowOf f.op = some r) :
    decodeFields p f =
      if !r.unusedZero f then .error .unusedField
      else if !r.slotsOk p f then .error .slotRange
      else if !r.symbolOk p f then .error .symbolRange
      else if !r.literalOk f then .error .literalBits
      else .ok (r.make f) := by
  simp [decodeFields, h]

/-- A word that decodes has a row, passes every check, and is the row's command. -/
theorem decodeFields_ok {p : Params} {f : Fields} {i : Instr} (h : decodeFields p f = .ok i) :
    ∃ r, rowOf f.op = some r ∧ r.unusedZero f = true ∧ r.slotsOk p f = true ∧ r.symbolOk p f = true ∧
      r.literalOk f = true ∧ i = r.make f := by
  unfold decodeFields at h
  cases hr : rowOf f.op with
  | none => simp [hr] at h
  | some r =>
    simp only [hr] at h
    split at h
    · cases h
    · split at h
      · cases h
      · split at h
        · cases h
        · split at h
          · cases h
          · cases h
            exact ⟨r, rfl, by simp_all, by simp_all, by simp_all, by simp_all, rfl⟩

@[simp] theorem bitShort_getLsbD (v : Bool) : (bitShort v).getLsbD 0 = v := by cases v <;> rfl

@[simp] theorem bitShort_high (v : Bool) : (bitShort v).extractLsb' 1 15 = 0 := by cases v <;> rfl

/-- A short whose upper 15 bits are zero is a bit operand. -/
theorem bitShort_of_high {s : Short} (h : s.extractLsb' 1 15 = 0) : bitShort (s.getLsbD 0) = s := by
  apply BitVec.eq_of_getLsbD_eq
  intro i hi
  rcases Nat.eq_zero_or_pos i with rfl | hpos
  · exact bitShort_getLsbD _
  · have h1 := congrArg (fun x => x.getLsbD (i - 1)) h
    simp only [BitVec.getLsbD_extractLsb'] at h1
    have h2 : i - 1 < 15 := by omega
    have h3 : 1 + (i - 1) = i := by omega
    simp only [h2, decide_true, Bool.true_and, h3] at h1
    rw [h1]
    cases s.getLsbD 0
    · simp [bitShort]
    · have : i ≠ 0 := by omega
      simp [bitShort, BitVec.getLsbD_one, this]

/-- Shifting by `n` leaves nothing exactly when the number is below `2^n` (R100). -/
theorem shiftRight_eq_zero_iff (x n : Nat) : (x >>> n == 0) = decide (x < 2 ^ n) := by
  rw [Nat.shiftRight_eq_div_pow, Bool.eq_iff_iff]
  simp [Nat.div_eq_zero_iff, Nat.pow_eq_zero]

end Sys2Proof
end

