-- ==== Sys2Proof/Laws/State.lean ====
section
/-! SUPPORT. One lemma for each field after each update, and what the slot operations and the two ends of a command
do, so that no later proof unfolds a record update. -/

namespace Sys2Proof.Machine

/-! ### setSlot -/

@[simp] theorem setSlot_strm (s : State) (a : SlotNo) (c : Container) : (s.setSlot a c).strm = s.strm := rfl
@[simp] theorem setSlot_pqInv (s : State) (a : SlotNo) (c : Container) : (s.setSlot a c).pqInv = s.pqInv := rfl
@[simp] theorem setSlot_pqh (s : State) (a : SlotNo) (c : Container) : (s.setSlot a c).pqh = s.pqh := rfl
@[simp] theorem setSlot_ft (s : State) (a : SlotNo) (c : Container) : (s.setSlot a c).ft = s.ft := rfl
@[simp] theorem setSlot_nodes (s : State) (a : SlotNo) (c : Container) : (s.setSlot a c).nodes = s.nodes := rfl
@[simp] theorem setSlot_cwt (s : State) (a : SlotNo) (c : Container) : (s.setSlot a c).cwt = s.cwt := rfl
@[simp] theorem setSlot_sb (s : State) (a : SlotNo) (c : Container) : (s.setSlot a c).sb = s.sb := rfl
@[simp] theorem setSlot_par (s : State) (a : SlotNo) (c : Container) : (s.setSlot a c).par = s.par := rfl
@[simp] theorem setSlot_inputs (s : State) (a : SlotNo) (c : Container) : (s.setSlot a c).inputs = s.inputs := rfl
@[simp] theorem setSlot_rsp (s : State) (a : SlotNo) (c : Container) : (s.setSlot a c).rsp = s.rsp := rfl
@[simp] theorem setSlot_draws (s : State) (a : SlotNo) (c : Container) : (s.setSlot a c).draws = s.draws := rfl
@[simp] theorem setSlot_slots (s : State) (a : SlotNo) (c : Container) :
    (s.setSlot a c).slots = s.slots.set a.toNat c := rfl

/-- A slot below NBC reads back what was put there. -/
theorem slot_setSlot_same {s : State} {a : SlotNo} (c : Container) (h : a.toNat < s.slots.length) :
    (s.setSlot a c).slot a = c := by
  simp [State.slot, h]

/-- Every other slot is left alone. -/
theorem slot_setSlot_ne (s : State) {a b : SlotNo} (c : Container) (h : b ≠ a) :
    (s.setSlot a c).slot b = s.slot b := by
  have hne : a.toNat ≠ b.toNat := fun e => h (BitVec.eq_of_toNat_eq e.symm)
  simp [State.slot, hne]

theorem setSlot_otherSlotsKept (s : State) (a : SlotNo) (c : Container) : OtherSlotsKept a s (s.setSlot a c) :=
  ⟨by simp, fun _ hb => slot_setSlot_ne s c hb⟩

/-- Slots are read from the slot list alone. -/
theorem slot_congr {s t : State} (h : t.slots = s.slots) (a : SlotNo) : t.slot a = s.slot a := by
  simp [State.slot, h]

/-- A slot below NBC is one of the list. -/
theorem slot_mem {s : State} {a : SlotNo} (h : a.toNat < s.slots.length) : s.slot a ∈ s.slots := by
  have : s.slot a = s.slots[a.toNat] := by simp [State.slot, h]
  rw [this]
  exact List.getElem_mem h

/-! ### The lock -/

theorem locked_eq_true {s : State} {a : SlotNo} : s.locked a = true ↔ ∃ k, s.strm = .active a k := by
  unfold State.locked
  split
  · next h => simp [h]
  · next i k h => simp [h]

/-! ### doReset -/

@[simp] theorem doReset_slots (s : State) : s.doReset.slots = List.replicate s.par.nbc Container.empty := rfl
@[simp] theorem doReset_strm (s : State) : s.doReset.strm = .inactive := rfl
@[simp] theorem doReset_pqInv (s : State) : s.doReset.pqInv = false := rfl
@[simp] theorem doReset_pqh (s : State) : s.doReset.pqh = [] := rfl
@[simp] theorem doReset_ft (s : State) : s.doReset.ft = [] := rfl
@[simp] theorem doReset_nodes (s : State) : s.doReset.nodes = [] := rfl
@[simp] theorem doReset_cwt (s : State) : s.doReset.cwt = [] := rfl
@[simp] theorem doReset_sb (s : State) : s.doReset.sb = [] := rfl
@[simp] theorem doReset_par (s : State) : s.doReset.par = s.par := rfl
@[simp] theorem doReset_inputs (s : State) : s.doReset.inputs = s.inputs := rfl
@[simp] theorem doReset_rsp (s : State) : s.doReset.rsp = none := rfl
@[simp] theorem doReset_draws (s : State) : s.doReset.draws = s.draws := rfl

/-! ### How a command ends -/

/-- respond gives a next state, that of the command's effect with the response. -/
theorem respond_next {s t : State} {fl : BitVec 8} {rs : Short} {rv : Long} (h : respond s fl rs rv = .next t) :
    t = { s with rsp := some ⟨.ok, fl, rs, rv⟩ } := by
  cases h; rfl

/-- raise gives a next state in which only the response differs (60_exceptions.md R262). -/
theorem raise_next {s t : State} {st : Status} (h : raise s st = .next t) :
    t = { s with rsp := some ⟨st, 0, 0, 0⟩ } := by
  cases h; rfl

end Sys2Proof.Machine
end

