-- ==== Sys2Proof/Laws/Ops.lean ====
section
/-! SUPPORT. What each shared operation can do, said once: the ends of the commands that write a slot, BC.EXTEND and
BC.EXTI over appendTo, HC.CWGET and HC.ENCODE over storeInto, and the packing of bits into bytes. -/

namespace Sys2Proof.Machine

/-! ### Commands that write one slot -/

/-- A command that ends by writing slot `a` and responding: the response, the frame, and the slot. -/
theorem respond_setSlot {s : State} {a : SlotNo} (h : s.hasSlot a) (c : Container) (fl : BitVec 8) (rs : Short)
    (rv : Long) :
    ∃ t, respond (s.setSlot a c) fl rs rv = .next t ∧ t.answeredOk fl rs rv ∧ OnlySlotChanged a s t ∧ t.slot a = c :=
  ⟨{ s.setSlot a c with rsp := some ⟨.ok, fl, rs, rv⟩ }, rfl, rfl, ⟨setSlot_otherSlotsKept s a c, rfl⟩,
    slot_setSlot_same c h⟩

/-! appendTo, whole: BUSY, then CAPACITY_EXCEEDED, then the bits appended (R133, R135). -/

theorem appendTo_busy {s : State} {a : SlotNo} (bs : List Bool) (h : s.locked a = true) :
    appendTo a bs s = raise s .busy := by
  simp [appendTo, h]

theorem appendTo_capacity {s : State} {a : SlotNo} {bs : List Bool} (h : s.locked a = false)
    (hc : s.par.bcMaxBits < (s.slot a).len + bs.length) : appendTo a bs s = raise s .capacityExceeded := by
  simp [appendTo, h, hc]

theorem appendTo_ok {s : State} {a : SlotNo} {bs : List Bool} (hs : s.hasSlot a) (h : s.locked a = false)
    (hc : (s.slot a).len + bs.length ≤ s.par.bcMaxBits) :
    ∃ t, appendTo a bs s = .next t ∧ t.answeredOk 0 0 (longOf ((s.slot a).len + bs.length)) ∧ OnlySlotChanged a s t ∧
      t.slot a = (s.slot a).append s.par.w bs := by
  have : ¬ s.par.bcMaxBits < (s.slot a).len + bs.length := by omega
  simp only [appendTo, h, this, Bool.false_eq_true, if_false]
  exact respond_setSlot hs _ _ _ _

/-! storeInto, whole: CAPACITY_EXCEEDED, or the content replaced with storage kept (R215, R220). -/

theorem storeInto_capacity {s : State} (a : SlotNo) {bs : List Bool} (hc : s.par.bcMaxBits < bs.length) :
    storeInto a bs s = raise s .capacityExceeded := by
  simp [storeInto, hc]

theorem storeInto_ok {s : State} {a : SlotNo} {bs : List Bool} (hs : s.hasSlot a)
    (hc : bs.length ≤ s.par.bcMaxBits) :
    ∃ t, storeInto a bs s = .next t ∧ t.answeredOk 0 0 (longOf bs.length) ∧ OnlySlotChanged a s t ∧
      t.slot a = (s.slot a).replace s.par.w bs := by
  have : ¬ s.par.bcMaxBits < bs.length := by omega
  simp only [storeInto, this, if_false]
  exact respond_setSlot hs _ _ _ _

/-! ### Allocated words -/

/-- `ceil_div(n, w)` words hold `n` bits, and are no more than any number of words that does. -/
theorem le_ceilDiv_mul {w : Nat} (hw : 0 < w) (n : Nat) : n ≤ ceilDiv n w * w := by
  have h1 := Nat.div_add_mod (n + w - 1) w
  have h2 := Nat.mod_lt (n + w - 1) hw
  unfold ceilDiv
  rw [Nat.mul_comm]
  omega

theorem ceilDiv_le {w : Nat} (hw : 0 < w) {n q : Nat} (h : n ≤ q * w) : ceilDiv n w ≤ q := by
  have : (n + w - 1) / w < q + 1 := by
    rw [Nat.div_lt_iff_lt_mul hw, Nat.add_mul]
    omega
  unfold ceilDiv
  omega

/-- The words after growth hold the length, and stay within the bound when both the length and the words before do
(10_state.md R22, R24). -/
theorem growTo_room {w : Nat} (hw : 0 < w) (nw n : Nat) : n ≤ growTo w nw n * w :=
  le_trans (le_ceilDiv_mul hw n) (Nat.mul_le_mul_right _ (Nat.le_max_right _ _))

theorem growTo_bound {w bound nw n : Nat} (hw : 0 < w) (hb : bound % w = 0) (hn : n ≤ bound) (hnw : nw * w ≤ bound) :
    growTo w nw n * w ≤ bound := by
  have hq : bound / w * w = bound := by
    have := Nat.div_add_mod bound w
    rw [Nat.mul_comm]
    omega
  unfold growTo
  rcases Nat.le_total nw (ceilDiv n w) with h | h
  · rw [Nat.max_eq_right h, ← hq]
    exact Nat.mul_le_mul_right _ (ceilDiv_le hw (by omega))
  · rw [Nat.max_eq_left h]
    exact hnw

/-- The invariant of a slot is kept by the two operations that can make it longer. -/
theorem SlotOk.append {p : Params} (hp : p.Valid) {c : Container} (h : SlotOk p c) (bs : List Bool)
    (hl : c.len + bs.length ≤ p.bcMaxBits) : SlotOk p (c.append p.w bs) := by
  have hw : 0 < p.w := by have := hp.w_ge; omega
  exact ⟨by simpa [Container.append, Container.len] using growTo_room hw c.nw (c.len + bs.length),
    growTo_bound hw hp.bits_mod hl h.bound⟩

theorem SlotOk.replace {p : Params} (hp : p.Valid) {c : Container} (h : SlotOk p c) (bs : List Bool)
    (hl : bs.length ≤ p.bcMaxBits) : SlotOk p (c.replace p.w bs) := by
  have hw : 0 < p.w := by have := hp.w_ge; omega
  exact ⟨by simpa [Container.replace, Container.len] using growTo_room hw c.nw bs.length,
    growTo_bound hw hp.bits_mod hl h.bound⟩

/-! ### Bytes -/

theorem packBits_lt (bs : List Bool) : packBits bs < 2 ^ bs.length := by
  induction bs with
  | nil => simp [packBits]
  | cons b bs ih =>
    simp only [packBits, List.length_cons, Nat.pow_succ]
    split <;> omega

/-- Bit `t` of the packed number is element `t` of the list, 0 past its end (R65). -/
theorem packBits_testBit (bs : List Bool) (t : Nat) : (packBits bs).testBit t = (bs[t]?).getD false := by
  induction bs generalizing t with
  | nil => simp [packBits]
  | cons b bs ih =>
    cases t with
    | zero => cases b <;> simp [packBits, Nat.testBit_zero]
    | succ t =>
      have hd : packBits (b :: bs) / 2 = packBits bs := by simp only [packBits]; split <;> omega
      rw [Nat.testBit_succ, hd, ih t]
      simp

theorem streamByte_lt (bits : List Bool) (k : Nat) : streamByte bits k < 256 := by
  have h := packBits_lt ((bits.drop (8 * k)).take 8)
  have hl : ((bits.drop (8 * k)).take 8).length ≤ 8 := by simp
  exact lt_of_lt_of_le h (Nat.pow_le_pow_right (by omega) hl)

/-- Bit `t` of byte `k` is bit `8k + t` of the container, 0 past its end and for `t ≥ 8` (R65, R66). -/
theorem streamByte_testBit (bits : List Bool) (k t : Nat) :
    (streamByte bits k).testBit t = (decide (t < 8) && (bits[8 * k + t]?).getD false) := by
  rw [streamByte, packBits_testBit]
  by_cases h : t < 8
  · simp [h]
  · simp [h]

@[simp] theorem packBytes_length (bits : List Bool) : (packBytes bits).length = ceilDiv bits.length 8 := by
  simp [packBytes]

theorem packBytes_getElem? {bits : List Bool} {k : Nat} (h : k < ceilDiv bits.length 8) :
    (packBytes bits)[k]? = some (streamByte bits k) := by
  simp [packBytes, h]

/-! ### Literals -/

@[simp] theorem literalBits_length (imm : Long) (n : Nat) : (literalBits imm n).length = n := by
  simp [literalBits]

theorem literalBits_getElem? {imm : Long} {n k : Nat} (h : k < n) :
    (literalBits imm n)[k]? = some (imm.getLsbD k) := by
  simp [literalBits, h]

/-! ### Result fields -/

/-- A number below 2^32 is in its `rv` field whole (R81, R93). -/
theorem longOf_toNat {n : Nat} (h : n < 2 ^ 32) : (longOf n).toNat = n := by
  simp only [longOf, BitVec.toNat_ofNat]
  exact Nat.mod_eq_of_lt h

/-- A number below 2^16 is in its `rs` field whole (R81, R93). -/
theorem shortOf_toNat {n : Nat} (h : n < 2 ^ 16) : (shortOf n).toNat = n := by
  simp only [shortOf, BitVec.toNat_ofNat]
  exact Nat.mod_eq_of_lt h

end Sys2Proof.Machine
end

