-- ==== Sys2Proof/Laws/PerInstr.lean ====
section
/-! SUPPORT. One lemma for each command: the word its encoder writes, split by R91, holds exactly its opcode, its
operands and zeros (30_encoding.md R91, R92, R95, R97). -/

namespace Sys2Proof.Laws.EncodeFields

/-- The fields of the encoded word are the command's fields. -/
def Statement (i : Instr) : Prop := Fields.ofWord (encode i) = i.fields

theorem sysNop : Statement .sysNop := Fields.ofWord_toWord _
theorem sysReset : Statement .sysReset := Fields.ofWord_toWord _
theorem sysInfo (k : Long) : Statement (.sysInfo k) := Fields.ofWord_toWord _
theorem bcNew (a : SlotNo) (nbits : Long) : Statement (.bcNew a nbits) := Fields.ofWord_toWord _
theorem bcPush (a : SlotNo) (v : Bool) : Statement (.bcPush a v) := Fields.ofWord_toWord _
theorem bcPop (a : SlotNo) : Statement (.bcPop a) := Fields.ofWord_toWord _
theorem bcGet (a : SlotNo) (j : Long) : Statement (.bcGet a j) := Fields.ofWord_toWord _
theorem bcSet (a : SlotNo) (j : Long) (v : Bool) : Statement (.bcSet a j v) := Fields.ofWord_toWord _
theorem bcFill (a : SlotNo) (v : Bool) : Statement (.bcFill a v) := Fields.ofWord_toWord _
theorem bcExtend (a b : SlotNo) : Statement (.bcExtend a b) := Fields.ofWord_toWord _
theorem bcExti (a : SlotNo) (imm : Long) (n : Short) : Statement (.bcExti a imm n) := Fields.ofWord_toWord _
theorem bcClear (a : SlotNo) : Statement (.bcClear a) := Fields.ofWord_toWord _
theorem bcLen (a : SlotNo) : Statement (.bcLen a) := Fields.ofWord_toWord _
theorem bcCap (a : SlotNo) : Statement (.bcCap a) := Fields.ofWord_toWord _
theorem bcSopen (a : SlotNo) : Statement (.bcSopen a) := Fields.ofWord_toWord _
theorem bcSnext : Statement .bcSnext := Fields.ofWord_toWord _
theorem bcSclose : Statement .bcSclose := Fields.ofWord_toWord _
theorem pqCfg (v : Bool) : Statement (.pqCfg v) := Fields.ofWord_toWord _
theorem pqPush (key : Long) (val : Short) : Statement (.pqPush key val) := Fields.ofWord_toWord _
theorem pqPop : Statement .pqPop := Fields.ofWord_toWord _
theorem pqPeek : Statement .pqPeek := Fields.ofWord_toWord _
theorem pqLen : Statement .pqLen := Fields.ofWord_toWord _
theorem hcFclr : Statement .hcFclr := Fields.ofWord_toWord _
theorem hcFput (weight : Long) (sym : Sym) : Statement (.hcFput weight sym) := Fields.ofWord_toWord _
theorem hcFget (sym : Sym) : Statement (.hcFget sym) := Fields.ofWord_toWord _
theorem hcBuild : Statement .hcBuild := Fields.ofWord_toWord _
theorem hcStat : Statement .hcStat := Fields.ofWord_toWord _
theorem hcNode (h : Long) : Statement (.hcNode h) := Fields.ofWord_toWord _
theorem hcCwget (a : SlotNo) (sym : Sym) : Statement (.hcCwget a sym) := Fields.ofWord_toWord _
theorem hcEncode (a : SlotNo) : Statement (.hcEncode a) := Fields.ofWord_toWord _
theorem hcDecode (b : SlotNo) (count : Long) : Statement (.hcDecode b count) := Fields.ofWord_toWord _
theorem sbClr : Statement .sbClr := Fields.ofWord_toWord _
theorem sbPush (sym : Sym) : Statement (.sbPush sym) := Fields.ofWord_toWord _
theorem sbGet (idx : Long) : Statement (.sbGet idx) := Fields.ofWord_toWord _
theorem sbLen : Statement .sbLen := Fields.ofWord_toWord _

end Sys2Proof.Laws.EncodeFields
end

