-- ==== Sys2Proof/Laws/Step.lean ====
section
/-! SUPPORT. What one step can do, said once. -/

namespace Sys2Proof.Machine

/-- Performing a word: ILLEGAL_COMMAND with no other change, or the meaning of the command it decodes to. -/
theorem perform_cases (w : PortWord) (s : State) :
    ((∃ e, decode s.par w = .error e) ∧ perform w s = raise s .illegalCommand) ∨
      ∃ i, decode s.par w = .ok i ∧ perform w s = exec i s := by
  unfold perform
  cases h : decode s.par w with
  | error e => exact .inl ⟨⟨e, rfl⟩, rfl⟩
  | ok i => exact .inr ⟨i, rfl, rfl⟩

/-- Everything a step that gives a next state can be: nothing was presented; an ill-formed word; a command; the
platform reset signal. -/
theorem step_next {s t : State} (h : step s = .next t) :
    (s.inputs = [] ∧ t = s) ∨
      (∃ w rest e, s.inputs = .command w :: rest ∧ decode s.par w = .error e ∧
        t = { s with inputs := rest, rsp := some ⟨.illegalCommand, 0, 0, 0⟩ }) ∨
      (∃ w rest i, s.inputs = .command w :: rest ∧ decode s.par w = .ok i ∧
        exec i { s with inputs := rest } = .next t) ∨
      ∃ rest, s.inputs = .resetSignal :: rest ∧ t = { s with inputs := rest }.doReset := by
  unfold step at h
  split at h
  · next hi => exact .inl ⟨hi, by cases h; rfl⟩
  · next w rest hi =>
    rcases perform_cases w { s with inputs := rest } with ⟨⟨e, he⟩, hp⟩ | ⟨i, hd, hp⟩
    · exact .inr (.inl ⟨w, rest, e, hi, he, by rw [hp] at h; cases h; rfl⟩)
    · exact .inr (.inr (.inl ⟨w, rest, i, hi, hd, by rw [hp] at h; exact h⟩))
  · next rest hi => exact .inr (.inr (.inr ⟨rest, hi, by cases h; rfl⟩))

end Sys2Proof.Machine
end

