-- ==== Sys2Proof/Tests/Slice0.lean ====
section
/-! SUPPORT. Small tests. Every expected word, bit, byte, node and codeword is taken from the examples of the command
rules or from the vectors of spec/95, 96 and 97, named at each test; the witnesses show that the hypotheses of each
statement can be met together. -/

namespace Sys2Proof.Tests

open Sys2Proof.Machine

/-! ### Helpers -/

/-- The response word of an answer. -/
def word : Answer → Option PortWord
  | .next t => t.rsp.map Response.word
  | .fault _ => none
  | .refused _ => none

/-- What a reader takes from the state of an answer. -/
def look {α : Type} (f : State → α) : Answer → Option α
  | .next t => some (f t)
  | .fault _ => none
  | .refused _ => none

/-- One step of a state at whose port the word is presented. -/
def ask (w : PortWord) (s : State) : Answer := step (s.withFetchWord 64 w.toNat)

/-- The reset state of a machine with the default sizes and every tie to the left (REF). -/
def fresh : State := State.resetWith Params.ref

/-- A fresh machine with the given bits in slot `a`, in one word. -/
def withBits (a : SlotNo) (bits : List Bool) : State := fresh.setSlot a ⟨bits, 1⟩

/-- `[1,0,1]` in slot 0. -/
def bits101 : State := withBits 0 [true, false, true]

/-- `[1,0,1]` in slot 0, locked by an open stream (V60). -/
def streaming : State := { bits101 with strm := .active 0 0 }

/-- Small sizes: 8-bit words, two slots of at most 16 bits, two queue entries, four symbols, three in the buffer. -/
def tiny : Params := { Params.ref with w := 8, nbc := 2, bcMaxBits := 16, pqCap := 2, symw := 2, sbCap := 3 }

/-- A tiny machine with every container, the queue and the buffer full. -/
def full : State :=
  { State.resetWith tiny with
    slots := [⟨List.replicate 16 true, 2⟩, ⟨List.replicate 16 false, 2⟩]
    pqh := [⟨5, 1⟩, ⟨3, 2⟩]
    sb := [0, 1, 2] }

/-- The queue of the example of PQ.POP (R167). -/
def queue : State := { fresh with pqh := [⟨9, 1⟩, ⟨3, 0⟩, ⟨5, 2⟩] }

/-- The frequency table of the concrete scenario (V3): A 5, B 2, C 1, D 1. -/
def scenario : Table Long := [(65, 5), (66, 2), (67, 1), (68, 1)]

/-- The arena of V30. -/
def nodes30 : List Node :=
  [.leaf 65, .leaf 66, .leaf 67, .leaf 68, .internal 2 3, .internal 1 4, .internal 5 0]

/-- The codewords of V30: A = 1, B = 00, C = 010, D = 011. -/
def cwt30 : Table (List Bool) :=
  [(65, [true]), (66, [false, false]), (67, [false, true, false]), (68, [false, true, true])]

/-- "ABACAD". -/
def abacad : List Sym := [65, 66, 65, 67, 65, 68]

/-- The encoding of "ABACAD" in V30. -/
def bits30 : List Bool := [true, false, false, true, false, true, false, true, false, true, true]

/-- The example codec built, "ABACAD" in the buffer, its encoding in slot 0, a queue, and a stream over slot 1. -/
def built : State :=
  { fresh with
    slots := ⟨bits30, 1⟩ :: ⟨[true], 1⟩ :: List.replicate 14 Container.empty
    strm := .active 1 0
    pqh := [⟨9, 1⟩, ⟨3, 0⟩, ⟨5, 2⟩]
    ft := scenario
    nodes := nodes30
    cwt := cwt30
    sb := abacad }

/-- A command or nothing at the port of a state, the pending inputs replaced. -/
def present (s : State) (is : List Input) : State := { s with inputs := is }

/-! ### WellFormed: an ill-formed term for each check -/

/-- V62: slots with NBC = 4. -/
theorem test_wf_refuses_slots :
    (Instr.bcLen 4).wf { Params.ref with nbc := 4 } = false ∧
    (Instr.bcExtend 0 4).wf { Params.ref with nbc := 4 } = false ∧
    (Instr.bcExtend 4 0).wf { Params.ref with nbc := 4 } = false ∧
    (Instr.hcDecode 15 0).wf { Params.ref with nbc := 4 } = false ∧
    (Instr.hcEncode 4).wf { Params.ref with nbc := 4 } = false ∧
    (Instr.bcLen 3).wf { Params.ref with nbc := 4 } = true := by decide

/-- V61: symbols with SYMW = 7. -/
theorem test_wf_refuses_symbols :
    (Instr.hcFput 1 0x80).wf { Params.ref with symw := 7 } = false ∧
    (Instr.sbPush 0x80).wf { Params.ref with symw := 7 } = false ∧
    (Instr.hcFget 0x80).wf { Params.ref with symw := 7 } = false ∧
    (Instr.hcCwget 0 0x80).wf { Params.ref with symw := 7 } = false ∧
    (Instr.hcFput 1 127).wf { Params.ref with symw := 7 } = true ∧
    (Instr.pqPush 1 128).wf { Params.ref with symw := 7 } = true := by decide

/-- V18: the literal checks of BC.EXTI. -/
theorem test_wf_refuses_literals :
    (Instr.bcExti 0 0 33).wf Params.ref = false ∧ (Instr.bcExti 0 8 3).wf Params.ref = false ∧
    (Instr.bcExti 0 1 0).wf Params.ref = false ∧ (Instr.bcExti 0 0 0).wf Params.ref = true ∧
    (Instr.bcExti 0 0x80000001 32).wf Params.ref = true := by decide

/-! ### Decode: every command's word, written out from the examples and vectors -/

/-- R245 to R247. -/
theorem test_decode_sys :
    decode Params.ref 0x0000000000000000 = .ok .sysNop ∧ decode Params.ref 0x0000000000000001 = .ok .sysReset ∧
    decode Params.ref 0x0000000400000002 = .ok (.sysInfo 4) := by decide

/-- R121 to R133. -/
theorem test_decode_bc :
    decode Params.ref 0x0000006400000310 = .ok (.bcNew 3 100) ∧
    decode Params.ref 0x0000000000010011 = .ok (.bcPush 0 true) ∧
    decode Params.ref 0x0000000000000111 = .ok (.bcPush 1 false) ∧
    decode Params.ref 0x0000000000000012 = .ok (.bcPop 0) ∧
    decode Params.ref 0x0000000300000513 = .ok (.bcGet 5 3) ∧
    decode Params.ref 0x0000000300010514 = .ok (.bcSet 5 3 true) ∧
    decode Params.ref 0x0000000000010015 = .ok (.bcFill 0 true) ∧
    decode Params.ref 0x0000000000007016 = .ok (.bcExtend 0 7) := by decide

/-- R135 to R147. -/
theorem test_decode_bc_rest :
    decode Params.ref 0x0000000500030017 = .ok (.bcExti 0 5 3) ∧
    decode Params.ref 0x8000000100200017 = .ok (.bcExti 0 0x80000001 32) ∧
    decode Params.ref 0x0000000000000018 = .ok (.bcClear 0) ∧
    decode Params.ref 0x0000000000000319 = .ok (.bcLen 3) ∧
    decode Params.ref 0x000000000000011A = .ok (.bcCap 1) ∧
    decode Params.ref 0x000000000000021B = .ok (.bcSopen 2) ∧
    decode Params.ref 0x000000000000001C = .ok .bcSnext ∧
    decode Params.ref 0x000000000000001D = .ok .bcSclose := by decide

/-- R161 to R171, V28. -/
theorem test_decode_pq :
    decode Params.ref 0x0000000000010020 = .ok (.pqCfg true) ∧
    decode Params.ref 0x0000002800070021 = .ok (.pqPush 40 7) ∧
    decode Params.ref 0xFFFFFFFFFFFF0021 = .ok (.pqPush 0xFFFFFFFF 0xFFFF) ∧
    decode Params.ref 0x0000000000000022 = .ok .pqPop ∧
    decode Params.ref 0x0000000000000023 = .ok .pqPeek ∧
    decode Params.ref 0x0000000000000024 = .ok .pqLen := by decide

/-- R191 to R225. -/
theorem test_decode_hc :
    decode Params.ref 0x0000000000000030 = .ok .hcFclr ∧
    decode Params.ref 0x0000000500410031 = .ok (.hcFput 5 65) ∧
    decode Params.ref 0x0000000000410032 = .ok (.hcFget 65) ∧
    decode Params.ref 0x0000000000000033 = .ok .hcBuild ∧
    decode Params.ref 0x0000000000000034 = .ok .hcStat ∧
    decode Params.ref 0x0000000600000035 = .ok (.hcNode 6) ∧
    decode Params.ref 0x0000000000430236 = .ok (.hcCwget 2 67) ∧
    decode Params.ref 0x0000000000000237 = .ok (.hcEncode 2) ∧
    decode Params.ref 0x0000000600001038 = .ok (.hcDecode 1 6) := by decide

/-- R241 to R244. -/
theorem test_decode_sb :
    decode Params.ref 0x0000000000000040 = .ok .sbClr ∧
    decode Params.ref 0x0000000000FF0041 = .ok (.sbPush 255) ∧
    decode Params.ref 0x0000000300000042 = .ok (.sbGet 3) ∧
    decode Params.ref 0x0000000000000043 = .ok .sbLen := by decide

/-- V60: each reason for which a word is refused, by name. -/
theorem test_decode_rejects :
    decode Params.ref 0xFFFFFFFFFFFFFF03 = .error .reservedOpcode ∧
    decode Params.ref 0x0000000000020011 = .error .unusedField ∧
    decode Params.ref 0x000000010000001C = .error .unusedField ∧
    decode { Params.ref with nbc := 4 } 0x0000000000004016 = .error .slotRange ∧
    decode Params.ref 0x0000000101000031 = .error .symbolRange ∧
    decode Params.ref 0x0000000800030017 = .error .literalBits ∧
    decode Params.ref 0x0000000000210017 = .error .literalBits := by decide

/-- The host's entry: the word of a table row as a number. -/
theorem test_decodeTableWord :
    decodeTableWord 64 0x0000000500030017 = some (.bcExti 0 5 3) ∧ decodeTableWord 64 3 = none := by decide

/-! ### The step -/

/-- V60: an ill-formed word is answered ILLEGAL_COMMAND, also while the slot it names is locked. -/
theorem test_step_illegal : word (ask 0x0000000000011011 streaming) = some 7 := by decide

/-- V60: the well-formed word reaches the lock. -/
theorem test_step_busy : word (ask 0x0000000000010011 streaming) = some 9 := by decide

/-- R7, R290: nothing presented, nothing happens; the reset signal empties the machine. -/
theorem test_step_idle_and_reset_signal :
    look id (step built) = some built ∧
    look id (step (present built [.resetSignal])) = some fresh := by decide

/-! ### SYS -/

theorem test_sysNop : word (ask 0 streaming) = some 0 ∧ look State.strm (ask 0 streaming) = some (.active 0 0) := by
  decide

/-- V53. -/
theorem test_sysReset : word (ask 1 built) = some 0 ∧
    look (fun t => (t.slots, t.strm, t.pqh)) (ask 1 built) = some (List.replicate 16 ⟨[], 0⟩, .inactive, []) ∧
    look (fun t => (t.ft, t.nodes, t.sb)) (ask 1 built) = some ([], [], []) ∧
    look State.cwt (ask 1 built) = some [] := by decide

/-- V52. -/
theorem test_sysInfo :
    word (ask 0x0000000200000002 fresh) = some 0x0001000000000000 ∧
    word (ask 0x0000000500000002 fresh) = some 0x0001000000000000 := by decide

theorem test_sysInfo_range : word (ask 0x0000000600000002 fresh) = some 2 := by decide

/-! ### BC -/

/-- V10: 65 bits take two 64-bit words, and the old content is lost. -/
theorem test_bcNew : look (fun t => t.slot 0) (ask 0x0000004100000010 bits101) = some ⟨[], 2⟩ := by decide

/-- V10: above BC_MAXBITS. -/
theorem test_bcNew_bound : word (ask 0x0001000100000010 bits101) = some 8 := by decide

/-- V12: with 8-bit words, bit 8 opens word 1. -/
theorem test_bcPush_opens_word :
    look (fun t => t.slot 0) (exec (.bcPush 0 true) { fresh with
      par := { Params.ref with w := 8 }
      slots := [⟨[true, false, true, false, false, true, false, true], 1⟩] }) =
      some ⟨[true, false, true, false, false, true, false, true, true], 2⟩ := by decide

/-- V22: a full container. -/
theorem test_bcPush_full : word (exec (.bcPush 0 true) full) = some 8 := by decide

theorem test_bcPop : word (ask 0x0000000000000012 bits101) = some 0x0000000100000000 ∧
    look (fun t => t.slot 0) (ask 0x0000000000000012 bits101) = some ⟨[true, false], 1⟩ := by decide

/-- V13. -/
theorem test_bcPop_empty : word (ask 0x0000000000000012 fresh) = some 1 := by decide

theorem test_bcGet : word (ask 0x0000000200000013 bits101) = some 0x0000000100000000 ∧
    word (ask 0x0000000100000013 bits101) = some 0 := by decide

theorem test_bcGet_range : word (ask 0x0000000300000013 bits101) = some 2 := by decide

/-- V14. -/
theorem test_bcSet : look (fun t => t.slot 5) (ask 0x0000000300010514 (withBits 5 [true, false, true, false])) =
    some ⟨[true, false, true, true], 1⟩ := by decide

theorem test_bcSet_range : word (ask 0x0000000400010514 (withBits 5 [true, false, true, false])) = some 2 := by decide

theorem test_bcFill : look (fun t => t.slot 0) (ask 0x0000000000010015 bits101) = some ⟨[true, true, true], 1⟩ := by
  decide

/-- V16: self-append reads the source as it was before the command. -/
theorem test_bcExtend_self : word (ask 0x0000000000003316 (withBits 3 [false, true])) = some 0x0000000400000000 ∧
    look (fun t => t.slot 3) (ask 0x0000000000003316 (withBits 3 [false, true])) =
      some ⟨[false, true, false, true], 1⟩ := by decide

/-- The example of R133: slot `a` grows, slot `b` stays. -/
theorem test_bcExtend :
    look (fun t => (t.slot 0, t.slot 3)) (ask 0x0000000000003016 (bits101.setSlot 3 ⟨[false, true], 1⟩)) =
      some (⟨[true, false, true, false, true], 1⟩, ⟨[false, true], 1⟩) := by decide

/-- V13: `imm[0]` first. -/
theorem test_bcExti : look (fun t => t.slot 0) (ask 0x0000000300030017 fresh) = some ⟨[true, true, false], 1⟩ := by
  decide

/-- V22: appending nothing to a full container succeeds. -/
theorem test_bcExti_full : word (exec (.bcExti 0 0 0) full) = some 0x0000001000000000 ∧
    word (exec (.bcExti 0 1 1) full) = some 8 := by decide

theorem test_bcClear : look (fun t => t.slot 0) (ask 0x0000000000000018 bits101) = some ⟨[], 1⟩ := by decide

theorem test_bcLen : word (ask 0x0000000000000019 bits101) = some 0x0000000300000000 ∧
    word (ask 0x0000000000000019 fresh) = some 0x0000000000000100 := by decide

theorem test_bcCap : word (ask 0x000000000000001A bits101) = some 0x0000004000000000 := by decide

/-- R143, and V19 on the empty container. -/
theorem test_bcSopen : look State.strm (ask 0x000000000000001B bits101) = some (.active 0 0) ∧
    look State.strm (ask 0x000000000000021B bits101) = some .inactive := by decide

/-- V2: nine bits are two bytes. -/
theorem test_bcSopen_bytes : word (ask 0x000000000000001B (withBits 0
    [true, false, true, false, true, false, true, false, true])) = some 0x0000000200000000 := by decide

/-- V1: the byte is 0b101, and the stream retires with it. -/
theorem test_bcSnext_last : word (ask 0x000000000000001C streaming) = some 0x0000000000050000 ∧
    look State.strm (ask 0x000000000000001C streaming) = some .inactive := by decide

/-- V2: the first of two bytes, 0x55. -/
theorem test_bcSnext_first :
    let s := { withBits 0 [true, false, true, false, true, false, true, false, true] with strm := .active 0 0 }
    word (ask 0x000000000000001C s) = some 0x0000000000550000 ∧
    look State.strm (ask 0x000000000000001C s) = some (.active 0 1) := by decide

theorem test_bcSnext_end : word (ask 0x000000000000001C bits101) = some 6 := by decide

theorem test_bcSclose : look State.strm (ask 0x000000000000001D streaming) = some .inactive := by decide

/-- V30: the bytes of the encoding of "ABACAD". -/
theorem test_packBytes : packBytes bits30 = [0xA9, 0x06] := by decide

/-- V15 at the word level: after filling three bits with ones, the byte taken from the word is masked to 0b111. -/
theorem test_storeByte_masked : storeByte 64 (fillWords 64 [5] true 1) 3 0 = 7 := by decide

/-! ### PQ -/

theorem test_pqCfg : look State.pqInv (ask 0x0000000000010020 fresh) = some true := by decide

/-- V24: refused even though the value would not change. -/
theorem test_pqCfg_busy : word (ask 0x0000000000000020 queue) = some 9 := by decide

/-- V23. -/
theorem test_pqPush : look State.pqh (ask 0x0000000700030021 queue) =
    some [⟨9, 1⟩, ⟨7, 3⟩, ⟨5, 2⟩, ⟨3, 0⟩] := by decide

/-- V29. -/
theorem test_pqPush_full : word (exec (.pqPush 3 3) full) = some 8 := by decide

/-- V23. -/
theorem test_pqPop : word (ask 0x0000000000000022 { fresh with pqh := [⟨9, 1⟩, ⟨7, 3⟩, ⟨5, 2⟩, ⟨3, 0⟩, ⟨1, 4⟩] }) =
      some 0x0000000900010000 ∧
    look State.pqh (ask 0x0000000000000022 { fresh with pqh := [⟨9, 1⟩, ⟨7, 3⟩, ⟨5, 2⟩, ⟨3, 0⟩, ⟨1, 4⟩] }) =
      some [⟨7, 3⟩, ⟨3, 0⟩, ⟨5, 2⟩, ⟨1, 4⟩] := by decide

/-- V24: a min-heap. -/
theorem test_pqPop_min : look State.pqh (ask 0x0000000000000022 { fresh with
      pqInv := true, pqh := [⟨1, 4⟩, ⟨3, 0⟩, ⟨5, 2⟩, ⟨9, 1⟩, ⟨7, 3⟩] }) =
    some [⟨3, 0⟩, ⟨7, 3⟩, ⟨5, 2⟩, ⟨9, 1⟩] := by decide

/-- V25 and V25r: equal keys, the tie to the left, to the right, and by a draw. -/
theorem test_pop_tie :
    let h : List Entry := [⟨9, 0⟩, ⟨7, 1⟩, ⟨7, 2⟩, ⟨1, 3⟩]
    heapPop (entryHigher false) .left (fun _ => true) h 0 = some (⟨9, 0⟩, [⟨7, 1⟩, ⟨1, 3⟩, ⟨7, 2⟩], 0) ∧
    heapPop (entryHigher false) .right (fun _ => false) h 0 = some (⟨9, 0⟩, [⟨7, 2⟩, ⟨7, 1⟩, ⟨1, 3⟩], 0) ∧
    heapPop (entryHigher false) .any (fun _ => true) h 0 = some (⟨9, 0⟩, [⟨7, 2⟩, ⟨7, 1⟩, ⟨1, 3⟩], 1) := by decide

/-- V26: all keys equal, no swap is made by either sift. -/
theorem test_pop_all_equal : heapPop (entryHigher false) .right (fun _ => true)
    [⟨4, 0⟩, ⟨4, 1⟩, ⟨4, 2⟩, ⟨4, 3⟩, ⟨4, 4⟩] 0 = some (⟨4, 0⟩, [⟨4, 4⟩, ⟨4, 1⟩, ⟨4, 2⟩, ⟨4, 3⟩], 0) := by decide

theorem test_pqPeek : word (ask 0x0000000000000023 queue) = some 0x0000000900010000 ∧
    word (ask 0x0000000000000023 fresh) = some 1 := by decide

theorem test_pqLen : word (ask 0x0000000000000024 { queue with pqInv := true }) = some 0x0000000300000200 ∧
    word (ask 0x0000000000000024 { fresh with pqInv := true }) = some 0x0000000000000300 := by decide

/-! ### HC -/

theorem test_hcFclr : look State.ft (ask 0x0000000000000030 built) = some [] ∧
    look State.nodes (ask 0x0000000000000030 built) = some nodes30 := by decide

/-- V37: a new weight replaces the old one; the table stays in ascending order of symbol. -/
theorem test_hcFput : look State.ft (ask 0x0000000100410031 built) =
      some [(65, 1), (66, 2), (67, 1), (68, 1)] ∧
    look State.ft (exec (.hcFput 9 64) built) = some [(64, 9), (65, 5), (66, 2), (67, 1), (68, 1)] := by decide

theorem test_hcFget : word (ask 0x0000000000410032 built) = some 0x0000000500000100 ∧
    word (ask 0x0000000000450032 built) = some 0 := by decide

/-- V30: the codec of the concrete scenario under REF. -/
theorem test_buildCodec_scenario :
    buildCodec Params.ref (fun _ => false) scenario 0 = some ⟨nodes30, cwt30, 6, 0⟩ := by decide

theorem test_hcBuild : word (ask 0x0000000000000033 { fresh with ft := scenario }) = some 0x0000000400060100 ∧
    look State.cwt (ask 0x0000000000000033 { fresh with ft := scenario }) = some cwt30 := by decide

/-- V31: the same table with HC_FIRST drawn: right, left, right, and the draws are counted. -/
theorem test_buildCodec_drawn :
    buildCodec Params.default (fun n => n != 1) scenario 0 =
      some ⟨[.leaf 65, .leaf 66, .leaf 67, .leaf 68, .internal 3 2, .internal 1 4, .internal 0 5],
        [(65, [false]), (66, [true, false]), (67, [true, true, true]), (68, [true, true, false])], 6, 3⟩ := by decide

/-- V36: HC_TIE drawn 1, 0; the codeword lengths depend on the draws. -/
theorem test_buildCodec_ties :
    (buildCodec { Params.ref with hcTie := .any } (fun n => n == 0) [(0, 1), (1, 1), (2, 2), (3, 2), (4, 4), (5, 4)] 0).map
        (fun c => (c.cwt, c.k)) =
      some ([(0, [false, true, true, false]), (1, [false, true, true, true]), (2, [false, true, false]),
        (3, [false, false]), (4, [true, false]), (5, [true, true])], 2) := by decide

/-- V34: symbols of weight 0 get leaves. -/
theorem test_buildCodec_zero_weights :
    (buildCodec Params.ref (fun _ => true) [(1, 0), (2, 0), (3, 5)] 0).map (fun c => (c.nodes, c.cwt)) =
      some ([.leaf 1, .leaf 2, .leaf 3, .internal 0 1, .internal 3 2],
        [(1, [false, false]), (2, [false, true]), (3, [true])]) := by decide

theorem test_hcStat : word (ask 0x0000000000000034 built) = some 0x0000000700060100 ∧
    word (ask 0x0000000000000034 fresh) = some 0 := by decide

/-- V30. -/
theorem test_hcNode : word (ask 0x0000000400000035 built) = some 0x0003000200000100 ∧
    word (ask 0x0000000000000035 built) = some 0x0000000000410000 := by decide

theorem test_hcNode_range : word (ask 0x0000000700000035 built) = some 2 := by decide

theorem test_hcCwget : word (ask 0x0000000000430236 built) = some 0x0000000300000000 ∧
    look (fun t => (t.slot 2).bits) (ask 0x0000000000430236 built) = some [false, true, false] := by decide

/-- V30, V38: an unknown symbol; BUSY is reported first. -/
theorem test_hcCwget_errors : word (ask 0x0000000000450236 built) = some 3 ∧
    word (ask 0x0000000000450136 built) = some 9 := by decide

theorem test_hcEncode : word (ask 0x0000000000000037 { built with slots := List.replicate 16 ⟨[], 0⟩ }) =
      some 0x0000000B00000000 ∧
    look (fun t => t.slot 0) (ask 0x0000000000000037 { built with slots := List.replicate 16 ⟨[], 0⟩ }) =
      some ⟨bits30, 1⟩ := by decide

/-- V38: an unknown symbol in the middle. -/
theorem test_hcEncode_unknown : word (ask 0x0000000000000037 { built with sb := [65, 69, 66] }) = some 3 := by decide

theorem test_hcDecode : word (ask 0x0000000600000038 { built with sb := [] }) = some 0x0000000B00000000 ∧
    look State.sb (ask 0x0000000600000038 { built with sb := [] }) = some abacad := by decide

/-- The example of R225, P5 and V39: too few bits, no tree, a count of zero from a locked slot. -/
theorem test_hcDecode_others : word (ask 0x0000000700000038 built) = some 4 ∧
    word (ask 0x0000000100000038 fresh) = some 5 ∧ look State.sb (ask 0x0000000000001038 built) = some [] := by decide

/-! ### SB -/

theorem test_sbClr : look State.sb (ask 0x0000000000000040 built) = some [] := by decide

theorem test_sbPush : look State.sb (ask 0x0000000000FF0041 { fresh with sb := [0] }) = some [0, 255] := by decide

/-- V51. -/
theorem test_sbPush_full : word (exec (.sbPush 3) full) = some 8 := by decide

theorem test_sbGet : word (ask 0x0000000300000042 built) = some 0x0000000000430000 := by decide

theorem test_sbGet_range : word (ask 0x0000000600000042 built) = some 2 := by decide

theorem test_sbLen : word (ask 0x0000000000000043 built) = some 0x0000000600000000 ∧
    word (ask 0x0000000000000043 fresh) = some 0x0000000000000100 := by decide

/-! ### Assembly -/

/-- R102, from the rows of V2, V14, V16, V30: operands in the order `a`, `b`, `imm`, `s`, numbers in decimal. -/
theorem test_asm :
    asm (.bcExti 0 341 9) = "BC.EXTI c0, 341, 9" ∧ asm (.bcSet 5 3 true) = "BC.SET c5, 3, 1" ∧
    asm (.bcExtend 0 3) = "BC.EXTEND c0, c3" ∧ asm (.hcDecode 1 6) = "HC.DECODE c1, 6" ∧
    asm .bcSnext = "BC.SNEXT" := by decide

/-- R103: BC.BITS with the three characters 1, 0, 1. -/
theorem test_bcBits : (Pseudo.bcBits 0 [true, false, true]).expand = [.bcExti 0 5 3] ∧
    (Pseudo.bcBits 0 []).expand = [] ∧
    (Pseudo.sbStr [65, 66]).expand = [.sbPush 65, .sbPush 66] := by decide

/-! ### Witnesses: the hypotheses of each statement, met together -/

theorem tiny_valid : tiny.Valid := by constructor <;> decide

theorem ref_valid : Params.ref.Valid := by constructor <;> decide

theorem scenario_ok : TableOk 256 scenario := ⟨by decide, by simp [scenario]⟩

/-- The example codec is a built codec: it is what HC.BUILD makes of the scenario. -/
theorem built_codec : CodecBuilt 256 4 nodes30 cwt30 := by
  obtain ⟨c, hc, -, hb, -⟩ := buildCodec_spec Params.ref (fun _ => false) scenario_ok (by decide) 0
  rw [test_buildCodec_scenario] at hc
  cases hc
  exact hb

theorem queue_ordered : HeapOrdered (entryHigher false) queue.pqh := by
  intro i x p hi hx hp
  have hl : i < 3 := (List.getElem?_eq_some_iff.1 hx).1
  obtain rfl | rfl : i = 1 ∨ i = 2 := by omega
  all_goals
    cases hx
    cases hp
    rfl

/-- A state with every unit in use meets the invariants. -/
theorem built_inv (is : List Input) : Inv (present built is) where
  params := ref_valid
  slots_count := rfl
  slots_ok := by
    have : ∀ c ∈ built.slots, c.len ≤ c.nw * 64 ∧ c.nw * 64 ≤ 65536 := by decide
    exact fun c hc => ⟨(this c hc).1, (this c hc).2⟩
  stream := by
    have : (1 : SlotNo).toNat < built.par.nbc ∧ 8 * 0 < (built.slot 1).len := by decide
    exact this
  queue_cap := by
    have : built.pqh.length ≤ built.par.pqCap := by decide
    exact this
  queue_order := queue_ordered
  freqs := scenario_ok
  codec := .inr ⟨4, built_codec⟩
  buffer_cap := by
    have : built.sb.length ≤ built.par.sbCap := by decide
    exact this
  buffer_syms := by
    have : ∀ x ∈ abacad, x.toNat < 256 := by simp [abacad]
    exact this

theorem witness_DecodeOfEncodeIsTheCommand :
    (Instr.bcExtend 15 15).wf Params.default = true ∧ (Instr.bcExti 15 0xFFFFFFFF 32).wf Params.default = true ∧
    (Instr.hcCwget 15 255).wf Params.default = true ∧ (Instr.pqPush 0xFFFFFFFF 0xFFFF).wf Params.default = true := by
  decide

theorem witness_EncodeOfDecodeIsTheWord : decode Params.default 0x8000000100200017 = .ok (.bcExti 0 0x80000001 32) := by
  decide

/-- The ends of every reserved range of R96. -/
theorem witness_ReservedOpcodesAreRefused :
    (present fresh [.command 0x03]).inputs = .command 0x03 :: [] ∧
    ∀ w ∈ ([0x03, 0x0F, 0x1E, 0x1F, 0x25, 0x2F, 0x39, 0x3F, 0x44, 0xFF] : List PortWord),
      (0x03 ≤ w.toNat % 256 ∧ w.toNat % 256 ≤ 0x0F ∨ w.toNat % 256 = 0x1E ∨ w.toNat % 256 = 0x1F ∨
        0x25 ≤ w.toNat % 256 ∧ w.toNat % 256 ≤ 0x2F ∨ 0x39 ≤ w.toNat % 256 ∧ w.toNat % 256 ≤ 0x3F ∨
        0x44 ≤ w.toNat % 256) := ⟨rfl, by simp⟩

/-- V60: PQ.LEN with a bit in `s` is the word of no command. -/
theorem witness_WordsOfNoCommandAreRefused :
    (present fresh [.command 0x10024]).inputs = .command 0x10024 :: [] ∧
    ∀ i : Instr, i.wf fresh.par = true → encode i ≠ 0x10024 := by
  refine ⟨rfl, fun i _ h => ?_⟩
  have hf := congrArg Fields.ofWord h
  rw [encode, Fields.ofWord_toWord] at hf
  have hop := congrArg Fields.op hf
  have hs := congrArg Fields.s hf
  cases i <;> first
    | exact absurd hop (by simp only [Instr.fields]; decide)
    | exact absurd hs (by simp only [Instr.fields]; decide)

theorem witness_StepRunsTheDecodedCommand :
    (present fresh [.command 0x24]).inputs = .command 0x24 :: [] ∧ decode fresh.par 0x24 = .ok .pqLen := by decide

theorem witness_StepWithoutACommand :
    (present fresh []).inputs = [] ∧ (present built [.resetSignal]).inputs = .resetSignal :: [] := by decide

theorem witness_EveryStepKeepsTheInvariants :
    Inv (present built [.command 0x33]) ∧ (look (fun _ => ()) (step (present built [.command 0x33]))).isSome = true :=
  ⟨built_inv _, by decide⟩

theorem witness_ResetMeetsTheInvariants : tiny.Valid ∧ Params.ref.Valid := ⟨tiny_valid, ref_valid⟩

/-- HC.DECODE of one symbol from `c0`, also on an arena whose one node names handles that name no node. -/
theorem witness_EveryCommandWordIsAnswered :
    (present built [.command 0x0000000100000038]).inputs = .command 0x0000000100000038 :: [] ∧
    (present { built with nodes := [.internal 5 6] } [.command 0x0000000100000038]).inputs =
      .command 0x0000000100000038 :: [] := ⟨rfl, rfl⟩

theorem witness_ErrorsChangeNothing :
    exec .pqPop fresh = .next { fresh with rsp := some ⟨.empty, 0, 0, 0⟩ } ∧ Status.empty ≠ .ok := ⟨rfl, by decide⟩

theorem witness_InvariantViolationIsUnreachable :
    TableOk built.par.nsym built.ft ∧ (look State.rsp (exec .hcBuild built)).isSome = true :=
  ⟨scenario_ok, by decide⟩

theorem witness_LockedSlotRefusesItsWriters :
    streaming.locked 0 = true ∧ (∀ i ∈ ([.bcNew 0 0, .bcPush 0 true, .bcPop 0, .bcSet 0 0 true, .bcFill 0 true,
      .bcExtend 0 1, .bcExti 0 1 1, .bcClear 0, .hcCwget 0 65, .hcEncode 0] : List Instr), slotWritten i = some 0) ∧
    (∀ i ∈ ([.bcGet 0 2, .bcLen 0, .bcCap 0, .bcSopen 0, .bcSnext, .bcExtend 1 0, .hcDecode 0 0] : List Instr),
      (look State.rsp (exec i streaming)).isSome = true) := by decide

theorem witness_EachUnitIsWrittenOnlyByItsCommands :
    exec .bcSclose streaming = .next { streaming with strm := .inactive, rsp := some ⟨.ok, 0, 0, 0⟩ } ∧
    Instr.bcSclose ≠ .sysReset := ⟨rfl, by decide⟩

theorem witness_ReadingCommandsAreIdempotent :
    ∀ i ∈ ([.sysNop, .sysInfo 6, .bcGet 0 10, .bcLen 15, .bcCap 0, .pqPeek, .pqLen, .hcFget 65, .hcStat, .hcNode 7,
      .sbGet 5, .sbLen] : List Instr), (look (fun _ => ()) (exec i built)).isSome = true := by decide

theorem witness_ParametersAndInputsAreTheHosts :
    (look (fun _ => ()) (step (present built [.command 1]))).isSome = true ∧
    (look (fun _ => ()) (exec .sysReset built)).isSome = true := by decide

theorem witness_LengthsFitTheirFields : Inv (present built []) ∧ built.hasSlot 0 ∧ built.hasSlot 15 :=
  ⟨built_inv _, by decide, by decide⟩

theorem witness_SysNopAndInfo :
    ((0 : Long) = 0 ∧ fresh.par.w = 64) ∧ ((5 : Long) = 5 ∧ fresh.par.sbCap = 65536) ∧ 5 < (6 : Long).toNat := by decide

theorem witness_BcNewCreatesTheSlotAfresh :
    streaming.locked 0 = true ∧ (fresh.locked 3 = false ∧ fresh.par.bcMaxBits < (65537 : Long).toNat) ∧
    (fresh.hasSlot 3 ∧ fresh.locked 3 = false ∧ (65536 : Long).toNat ≤ fresh.par.bcMaxBits) := by decide

theorem witness_BcPushAppendsOneBit :
    streaming.locked 0 = true ∧ (full.locked 1 = false ∧ (full.slot 1).len = full.par.bcMaxBits) ∧
    (bits101.hasSlot 0 ∧ bits101.locked 0 = false ∧ (bits101.slot 0).len ≠ bits101.par.bcMaxBits) := by decide

theorem witness_BcPopRemovesTheLastBit :
    streaming.locked 0 = true ∧ (fresh.locked 0 = false ∧ (fresh.slot 0).len = 0) ∧
    (bits101.hasSlot 0 ∧ bits101.locked 0 = false ∧ (bits101.slot 0).bits = [true, false] ++ [true]) := by decide

theorem witness_BcGetReadsTheBit :
    (bits101.slot 0).len ≤ (3 : Long).toNat ∧ (bits101.slot 0).bits[(2 : Long).toNat]? = some true := by decide

theorem witness_BcSetWritesOneBit :
    streaming.locked 0 = true ∧ (bits101.locked 0 = false ∧ (bits101.slot 0).len ≤ (3 : Long).toNat) ∧
    (bits101.hasSlot 0 ∧ bits101.locked 0 = false ∧ (2 : Long).toNat < (bits101.slot 0).len) := by decide

theorem witness_BcFillSetsEveryBit :
    streaming.locked 0 = true ∧ (bits101.hasSlot 0 ∧ bits101.locked 0 = false) := by decide

theorem witness_BcExtendAppendsTheSource :
    streaming.locked 0 = true ∧
    (full.locked 0 = false ∧ full.par.bcMaxBits < (full.slot 0).len + (full.slot 1).len) ∧
    (bits101.hasSlot 0 ∧ bits101.locked 0 = false ∧
      (bits101.slot 0).len + (bits101.slot 0).len ≤ bits101.par.bcMaxBits) := by decide

theorem witness_BcExtiAppendsTheLiteral :
    streaming.locked 0 = true ∧
    (full.locked 0 = false ∧ full.par.bcMaxBits < (full.slot 0).len + (1 : Short).toNat) ∧
    (full.hasSlot 0 ∧ full.locked 0 = false ∧ (full.slot 0).len + (0 : Short).toNat ≤ full.par.bcMaxBits) := by decide

theorem witness_BcClearKeepsStorage :
    streaming.locked 0 = true ∧ (bits101.hasSlot 0 ∧ bits101.locked 0 = false) := by decide

theorem witness_BcSnextDeliversTheNextByte : fresh.strm = .inactive ∧ streaming.strm = .active 0 0 := by decide

theorem witness_StorageNeverShrinks :
    (exec (.bcClear 0) bits101 = .next { bits101.setSlot 0 ⟨[], 1⟩ with rsp := some ⟨.ok, 0, 0, 0⟩ } ∧
      Instr.bcClear 0 ≠ .sysReset ∧ ∀ n, Instr.bcClear 0 ≠ .bcNew 0 n) ∧
    (0 < bits101.par.w ∧ bits101.hasSlot 0 ∧ (bits101.slot 0).len ≤ (bits101.slot 0).nw * bits101.par.w ∧
      look State.rsp (exec (.bcPush 0 true) bits101) = some (some ⟨.ok, 0, 0, 0⟩)) :=
  ⟨⟨rfl, by decide, fun _ => nofun⟩, by decide⟩

theorem witness_PackedBytesAreLeastSignificantFirst : 1 < ceilDiv bits30.length 8 := by decide

theorem witness_StreamDeliversThePackedBytes :
    exec (.bcSopen 0) bits101 = .next { streaming with rsp := some ⟨.ok, 0, 0, 1⟩ } := rfl

theorem witness_OtherCommandsLeaveTheStreamAlone :
    streaming.strm = .active 0 0 ∧
    exec (.bcPush 0 true) streaming = .next { streaming with rsp := some ⟨.busy, 0, 0, 0⟩ } ∧
    (∀ b, Instr.bcPush 0 true ≠ .bcSopen b) ∧ Instr.bcPush 0 true ≠ .bcSnext ∧ Instr.bcPush 0 true ≠ .bcSclose ∧
    Instr.bcPush 0 true ≠ .sysReset := ⟨rfl, rfl, fun _ => nofun, nofun, nofun, nofun⟩

/-- One word of 8 bits holding 1, 0, 1 in its low bits, with other bits above them. -/
theorem witness_backs : Backs 8 [0xF5] ⟨[true, false, true], 1⟩ where
  words := rfl
  width := by decide
  room := by decide
  bits := by
    intro j b h
    have hl : j < 3 := (List.getElem?_eq_some_iff.1 h).1
    obtain rfl | rfl | rfl : j = 0 ∨ j = 1 ∨ j = 2 := by omega
    all_goals
      cases h
      decide

theorem witness_WordWritesAppendTheBits :
    Backs 8 [0xF5] ⟨[true, false, true], 1⟩ ∧ (∀ x ∈ [0xAA], x < 2 ^ 8) ∧
    1 + [0xAA].length = max 1 (ceilDiv (3 + (List.replicate 6 true).length) 8) := ⟨witness_backs, by decide, by decide⟩

theorem witness_WordStoreFollowsTheContainer :
    Backs 8 [0xF5] ⟨[true, false, true], 1⟩ ∧ [true, false, true][2]? = some true ∧ 2 < [true, false, true].length :=
  ⟨witness_backs, by decide, by decide⟩

theorem witness_StreamByteIsTheMaskedWordField :
    0 < 8 ∧ 8 % 8 = 0 ∧ Backs 8 [0xF5] ⟨[true, false, true], 1⟩ ∧ 8 * 0 < [true, false, true].length :=
  ⟨by decide, by decide, witness_backs, by decide⟩

theorem witness_PqCfgOnlyWhenEmpty : queue.pqh ≠ [] ∧ fresh.pqh = [] := by decide

theorem witness_PqPushAddsTheEntry :
    full.pqh.length = full.par.pqCap ∧
    (queue.pqh.length ≠ queue.par.pqCap ∧ HeapOrdered (entryHigher queue.pqInv) queue.pqh) :=
  ⟨by decide, by decide, queue_ordered⟩

theorem witness_PqPopRemovesTheHighest :
    fresh.pqh = [] ∧ (queue.pqh[0]? = some ⟨9, 1⟩ ∧ HeapOrdered (entryHigher queue.pqInv) queue.pqh) :=
  ⟨rfl, rfl, queue_ordered⟩

theorem witness_PqPeekAndLen :
    fresh.pqh = [] ∧ queue.pqh[0]? = some ⟨9, 1⟩ ∧ HeapOrdered (entryHigher queue.pqInv) queue.pqh :=
  ⟨rfl, rfl, queue_ordered⟩

theorem witness_DrainIsInPriorityOrder : HeapOrdered (entryHigher queue.pqInv) queue.pqh := queue_ordered

theorem witness_FrequencyTableCommands : (66 : Sym) ≠ 65 := by decide

theorem witness_BuildMakesACodecOfThePresentSymbols :
    (TableOk fresh.par.nsym fresh.ft ∧ fresh.ft = []) ∧ (TableOk built.par.nsym built.ft ∧ built.ft ≠ []) :=
  ⟨⟨TableOk.nil _, rfl⟩, scenario_ok, by decide⟩

theorem witness_MergeTakesTheTwoLowestWeights :
    2 ≤ (Forest.mk [.leaf 1, .leaf 2] [⟨0, 0⟩, ⟨0, 1⟩] 0).heap.length ∧
    HeapOrdered pendingHigher (Forest.mk [.leaf 1, .leaf 2] [⟨0, 0⟩, ⟨0, 1⟩] 0).heap := by
  refine ⟨by decide, fun i x p hi hx hp => ?_⟩
  have hl : i < 2 := (List.getElem?_eq_some_iff.1 hx).1
  obtain rfl : i = 1 := by omega
  cases hx
  cases hp
  rfl

theorem witness_RootWeightIsTheTotal : scenario ≠ [] := by decide

theorem witness_CodewordsArePrefixFree :
    Inv (present built []) ∧ (67 : Sym) ≠ 68 ∧ Table.get? built.cwt 67 = some [false, true, false] ∧
    Table.get? built.cwt 68 = some [false, true, true] := ⟨built_inv _, by decide, by decide, by decide⟩

theorem witness_CodewordLengthsAreBounded :
    Inv (present built []) ∧ built.nodes ≠ [] ∧ Table.get? built.cwt 68 = some [false, true, true] :=
  ⟨built_inv _, by decide, by decide⟩

theorem witness_HcStatAndNode :
    fresh.nodes = [] ∧ built.nodes ≠ [] ∧ built.nodes.length ≤ (7 : Long).toNat ∧
    built.nodes[(3 : Long).toNat]? = some (.leaf 68) ∧
    (built.nodes[(6 : Long).toNat]? = some (.internal 5 0) ∧ 5 < 2 ^ 16 ∧ 0 < 2 ^ 16) := by decide

/-- The capacity clause with BC_MAXBITS taken as 2. -/
theorem witness_HcCwgetCopiesTheCodeword :
    streaming.locked 0 = true ∧ (built.locked 0 = false ∧ Table.get? built.cwt 69 = none) ∧
    (built.locked 0 = false ∧ Table.get? built.cwt 68 = some [false, true, true]) ∧
    { built with par := { built.par with bcMaxBits := 2 } }.par.bcMaxBits < [false, true, true].length ∧
    (built.hasSlot 0 ∧ [false, true, true].length ≤ built.par.bcMaxBits) := by decide

theorem witness_HcEncodeConcatenatesTheCodewords :
    built.locked 1 = true ∧
    (built.locked 0 = false ∧ (69 : Sym) ∈ { built with sb := [65, 69] }.sb ∧ Table.get? built.cwt 69 = none) ∧
    (built.locked 0 = false ∧ built.sb.map (Table.get? built.cwt) =
      [[true], [false, false], [true], [false, true, false], [true], [false, true, true]].map some) ∧
    { built with par := { built.par with bcMaxBits := 8 } }.par.bcMaxBits < bits30.length ∧
    (built.hasSlot 0 ∧ bits30.length ≤ built.par.bcMaxBits) := by decide

theorem witness_HcDecodeReadsTheCodewords :
    CodecOk built.par.nsym built.nodes built.cwt ∧ CodecOk fresh.par.nsym fresh.nodes fresh.cwt ∧
    ((1 : Long) ≠ 0 ∧ fresh.nodes = []) ∧
    ((65537 : Long) ≠ 0 ∧ built.nodes ≠ [] ∧ built.par.sbCap < (65537 : Long).toNat) ∧
    (built.nodes ≠ [] ∧ (6 : Long).toNat ≤ built.par.sbCap ∧ (6 : Long) ≠ 0 ∧
      abacad.map (Table.get? built.cwt) =
        [[true], [false, false], [true], [false, true, false], [true], [false, true, true]].map some ∧
      (built.slot 0).bits = [[true], [false, false], [true], [false, true, false], [true], [false, true, true]].flatten ++ [] ∧
      abacad.length = (6 : Long).toNat) ∧
    (abacad.length < (7 : Long).toNat ∧ Table.get? built.cwt 65 = some ([] ++ [true]) ∧ [true] ≠ []) :=
  ⟨.inr ⟨4, built_codec⟩, .inl ⟨rfl, rfl⟩, by decide, by decide, by decide, by decide⟩

theorem witness_EncodeThenDecodeIsTheIdentity :
    Inv (present built []) ∧ built.hasSlot 0 ∧ built.nodes ≠ [] ∧ built.locked 0 = false ∧
    (∀ x ∈ built.sb, (Table.get? built.cwt x).isSome = true) ∧ encodeSyms built.cwt built.sb = some bits30 ∧
    bits30.length ≤ built.par.bcMaxBits ∧ (6 : Long).toNat = built.sb.length :=
  ⟨built_inv _, by decide, by decide, by decide, encodeSyms_isSome.1 (by decide), by decide, by decide, by decide⟩

theorem witness_SingleSymbolAndEmptyCorpus :
    { fresh with ft := [(90, 7)] }.ft = [(90, 7)] ∧ (66 : Sym) ≠ 90 ∧
    ({ fresh with nodes := [.leaf 90] }.nodes = [.leaf 90] ∧ (65536 : Long).toNat ≤ fresh.par.sbCap) ∧
    (fresh.hasSlot 0 ∧ fresh.locked 0 = false ∧ fresh.sb = []) := by decide

/-- A fixed-length code for the four symbols of the scenario: no codeword is a prefix of another. -/
theorem witness_BuiltCodeHasMinimumRedundancy :
    TableOk 256 scenario ∧ buildCodec Params.ref (fun _ => false) scenario 0 = some ⟨nodes30, cwt30, 6, 0⟩ ∧
    ∀ x y : Sym, (Table.get? scenario x).isSome = true → (Table.get? scenario y).isSome = true → x ≠ y →
      ¬ [x.getLsbD 2, x.getLsbD 1, x.getLsbD 0] <+: [y.getLsbD 2, y.getLsbD 1, y.getLsbD 0] := by
  refine ⟨scenario_ok, test_buildCodec_scenario, fun x y hx hy hne => ?_⟩
  rw [Table.get?_isSome_iff] at hx hy
  revert hne
  revert hx hy
  simp [scenario]
  rintro (rfl | rfl | rfl | rfl) (rfl | rfl | rfl | rfl) <;> simp

theorem witness_SbClrAndPush :
    full.sb.length = full.par.sbCap ∧ fresh.sb.length ≠ fresh.par.sbCap := by decide

theorem witness_SbGetAndLen :
    built.sb.length ≤ (6 : Long).toNat ∧ built.sb[(5 : Long).toNat]? = some 68 := by decide

theorem witness_BcBitsExpandsToTheString : slotInRange Params.default 15 ∧
    [List.replicate 32 true, [false]][1]? = some [false] := by decide

end Sys2Proof.Tests
end

/-! How every command ends: a raise, or a response on a state with the parameters and the pending inputs kept. The
scope statements (00_scope.md) follow from it. -/

namespace Sys2Proof.Machine

/-! ### The two ends of a command -/

/-- The two ends of a command begun in `s` (00_scope.md R13): it raises an error over `s` itself, or it responds over
a state that has the parameters and the pending inputs of `s`. -/
inductive CommandEnd (s : State) : Answer → Prop
  | raise {st : Status} (hst : st ≠ .ok := by decide) : CommandEnd s (raise s st)
  | respond {u : State} {fl : BitVec 8} {rs : Short} {rv : Long} (hpar : u.par = s.par := by rfl)
      (hinputs : u.inputs = s.inputs := by rfl) : CommandEnd s (respond u fl rs rv)

namespace CommandEnd

theorem ite {s : State} {c : Prop} [Decidable c] {x y : Answer} (hx : CommandEnd s x) (hy : CommandEnd s y) :
    CommandEnd s (if c then x else y) := by
  split
  · exact hx
  · exact hy

/-- A check in front of the rest of a command (60_exceptions.md R270). -/
theorem check {s : State} {c : Prop} [Decidable c] {st : Status} {x : Answer} (hx : CommandEnd s x)
    (hst : st ≠ .ok := by decide) : CommandEnd s (if c then Machine.raise s st else x) :=
  ite (.raise hst) hx

/-- A command keeps what the host sets: the parameters and the list of pending inputs. -/
theorem par_inputs {s t : State} {x : Answer} (hx : CommandEnd s x) (h : x = .next t) :
    t.par = s.par ∧ t.inputs = s.inputs := by
  cases hx with
  | raise => rw [raise_next h]; exact ⟨rfl, rfl⟩
  | respond hpar hinputs => rw [respond_next h]; exact ⟨hpar, hinputs⟩

end CommandEnd

/-! ### Commands that look something up, and the shared bodies -/

theorem execSysInfo_end (k : Long) (s : State) : CommandEnd s (execSysInfo k s) := by
  unfold execSysInfo
  split
  · exact .raise
  · exact .respond

theorem execBcPop_end (a : SlotNo) (s : State) : CommandEnd s (execBcPop a s) := by
  refine .check ?_
  split
  · exact .raise
  · exact .respond

theorem execBcGet_end (a : SlotNo) (j : Long) (s : State) : CommandEnd s (execBcGet a j s) := by
  unfold execBcGet
  split
  · exact .raise
  · exact .respond

theorem appendTo_end (a : SlotNo) (bs : List Bool) (s : State) : CommandEnd s (appendTo a bs s) :=
  .check (.check .respond)

theorem execBcSnext_end (s : State) : CommandEnd s (execBcSnext s) := by
  unfold execBcSnext
  split
  · exact .raise
  · exact .respond

theorem execPqPop_end (s : State) : CommandEnd s (execPqPop s) := by
  unfold execPqPop
  split
  · exact .raise
  · exact .respond

theorem execPqPeek_end (s : State) : CommandEnd s (execPqPeek s) := by
  unfold execPqPeek
  split
  · exact .raise
  · exact .respond

theorem execHcFget_end (sym : Sym) (s : State) : CommandEnd s (execHcFget sym s) := by
  unfold execHcFget
  split
  · exact .respond
  · exact .respond

theorem execHcBuild_end (s : State) : CommandEnd s (execHcBuild s) := by
  refine .ite .respond ?_
  split
  · exact .raise
  · exact .respond

theorem execHcNode_end (h : Long) (s : State) : CommandEnd s (execHcNode h s) := by
  unfold execHcNode
  split
  · exact .raise
  · exact .respond
  · exact .respond

theorem storeInto_end (a : SlotNo) (bs : List Bool) (s : State) : CommandEnd s (storeInto a bs s) :=
  .check .respond

theorem execHcCwget_end (a : SlotNo) (sym : Sym) (s : State) : CommandEnd s (execHcCwget a sym s) := by
  refine .check ?_
  split
  · exact .raise
  · exact storeInto_end a _ s

theorem execHcEncode_end (a : SlotNo) (s : State) : CommandEnd s (execHcEncode a s) := by
  refine .check ?_
  split
  · exact .raise
  · exact storeInto_end a _ s

theorem execHcDecode_end (b : SlotNo) (count : Long) (s : State) : CommandEnd s (execHcDecode b count s) := by
  refine .ite .respond (.check (.check ?_))
  split
  · exact .raise
  · exact .respond

theorem execSbGet_end (idx : Long) (s : State) : CommandEnd s (execSbGet idx s) := by
  unfold execSbGet
  split
  · exact .raise
  · exact .respond

/-- Every command, in every state, raises or responds, and either way keeps what the host sets. -/
theorem exec_end (i : Instr) (s : State) : CommandEnd s (exec i s) := by
  cases i with
  | sysNop => exact .respond
  | sysReset => exact .respond
  | sysInfo k => exact execSysInfo_end k s
  | bcNew a nbits => exact .check (.check .respond)
  | bcPush a v => exact .check (.check .respond)
  | bcPop a => exact execBcPop_end a s
  | bcGet a j => exact execBcGet_end a j s
  | bcSet a j v => exact .check (.check .respond)
  | bcFill a v => exact .check .respond
  | bcExtend a b => exact appendTo_end a _ s
  | bcExti a imm n => exact appendTo_end a _ s
  | bcClear a => exact .check .respond
  | bcLen a => exact .respond
  | bcCap a => exact .respond
  | bcSopen a => exact .respond
  | bcSnext => exact execBcSnext_end s
  | bcSclose => exact .respond
  | pqCfg v => exact .check .respond
  | pqPush key val => exact .check .respond
  | pqPop => exact execPqPop_end s
  | pqPeek => exact execPqPeek_end s
  | pqLen => exact .respond
  | hcFclr => exact .respond
  | hcFput weight sym => exact .respond
  | hcFget sym => exact execHcFget_end sym s
  | hcBuild => exact execHcBuild_end s
  | hcStat => exact .ite .respond .respond
  | hcNode h => exact execHcNode_end h s
  | hcCwget a sym => exact execHcCwget_end a sym s
  | hcEncode a => exact execHcEncode_end a s
  | hcDecode b count => exact execHcDecode_end b count s
  | sbClr => exact .respond
  | sbPush sym => exact .check .respond
  | sbGet idx => exact execSbGet_end idx s
  | sbLen => exact .respond

/-! ### The step -/

/-- Nothing presented, nothing done (00_scope.md R7). -/
theorem step_of_no_input {s : State} (h : s.inputs = []) : step s = .next s := by
  simp only [step, h]

/-- The platform reset signal (70_reset_and_hazards.md R290). -/
theorem step_of_resetSignal {s : State} {rest : List Input} (h : s.inputs = .resetSignal :: rest) :
    step s = .next { s with inputs := rest }.doReset := by
  simp only [step, h]

/-- No step writes the parameters (00_scope.md R9). -/
theorem step_par {s t : State} (h : step s = .next t) : t.par = s.par := by
  obtain ⟨-, rfl⟩ | ⟨w, rest, e, -, -, rfl⟩ | ⟨w, rest, i, -, -, hexec⟩ | ⟨rest, -, rfl⟩ := step_next h
  · rfl
  · rfl
  · exact ((exec_end i _).par_inputs hexec).1
  · rfl

/-! ### The obligations -/

/-- Settles O17: every command raises or responds, and both ends keep the parameters and the pending inputs. -/
theorem parametersAndInputsAreTheHosts : Obligations.ParametersAndInputsAreTheHosts :=
  ⟨fun _ _ h => step_par h, fun i s _ h => ((exec_end i s).par_inputs h).2⟩

/-- Settles O8: the two steps that perform no command word; the reset signal's effect is `State.doReset`. -/
theorem stepWithoutACommand : Obligations.StepWithoutACommand :=
  ⟨fun _ h => step_of_no_input h, fun _ _ h => step_of_resetSignal h⟩

end Sys2Proof.Machine

/-! What a command can write, said once for all commands as a relation, and what follows from it for the state
(10_state.md): who writes which unit, the stream lock, the storage of a slot, the invariants. -/

namespace Sys2Proof.Machine

/-! ### Reading and writing a slot -/

/-- A slot that does not exist cannot be written (log 11). -/
theorem setSlot_of_not_hasSlot {s : State} {a : SlotNo} (h : ¬ s.hasSlot a) (c : Container) : s.setSlot a c = s := by
  simp [State.setSlot, List.set_eq_of_length_le (Nat.le_of_not_lt h)]

/-- A slot that does not exist reads as empty (log 11). -/
theorem slot_of_not_hasSlot {s : State} {a : SlotNo} (h : ¬ s.hasSlot a) : s.slot a = Container.empty := by
  simp [State.slot, Nat.le_of_not_lt h]

/-- One stream at a time, so at most one locked slot (R27, R28). -/
theorem locked_unique {s : State} {a b : SlotNo} (ha : s.locked a = true) (hb : s.locked b = true) : a = b := by
  obtain ⟨k, hk⟩ := locked_eq_true.1 ha
  obtain ⟨j, hj⟩ := locked_eq_true.1 hb
  cases hk.symm.trans hj
  rfl

/-! ### The writes of a command -/

/-- What a command that writes a slot makes of the slot's container `c` (R25), with the checks it has passed. -/
inductive SlotEdit (p : Params) (c : Container) : Instr → Container → Prop
  | new {a : SlotNo} {n : Long} (hn : n.toNat ≤ p.bcMaxBits) : SlotEdit p c (.bcNew a n) ⟨[], ceilDiv n.toNat p.w⟩
  | push {a : SlotNo} {v : Bool} (hl : c.len ≠ p.bcMaxBits) : SlotEdit p c (.bcPush a v) (c.append p.w [v])
  | pop {a : SlotNo} : SlotEdit p c (.bcPop a) ⟨c.bits.dropLast, c.nw⟩
  | set {a : SlotNo} {j : Long} {v : Bool} : SlotEdit p c (.bcSet a j v) ⟨c.bits.set j.toNat v, c.nw⟩
  | fill {a : SlotNo} {v : Bool} : SlotEdit p c (.bcFill a v) ⟨List.replicate c.len v, c.nw⟩
  | extend {a b : SlotNo} {bs : List Bool} (hl : c.len + bs.length ≤ p.bcMaxBits) :
      SlotEdit p c (.bcExtend a b) (c.append p.w bs)
  | exti {a : SlotNo} {imm : Long} {n : Short} {bs : List Bool} (hl : c.len + bs.length ≤ p.bcMaxBits) :
      SlotEdit p c (.bcExti a imm n) (c.append p.w bs)
  | clear {a : SlotNo} : SlotEdit p c (.bcClear a) ⟨[], c.nw⟩
  | cwget {a : SlotNo} {x : Sym} {bs : List Bool} (hl : bs.length ≤ p.bcMaxBits) :
      SlotEdit p c (.hcCwget a x) (c.replace p.w bs)
  | encode {a : SlotNo} {bs : List Bool} (hl : bs.length ≤ p.bcMaxBits) :
      SlotEdit p c (.hcEncode a) (c.replace p.w bs)

/-- What a command writes, apart from the response: one constructor for each kind of write, with the checks the
command has passed. -/
inductive Effect (s : State) : Instr → State → Prop
  | reset : Effect s .sysReset s.doReset
  | slot {i : Instr} {a : SlotNo} {c : Container} (hw : slotWritten i = some a) (hl : s.locked a = false)
      (he : SlotEdit s.par (s.slot a) i c) : Effect s i (s.setSlot a c)
  | opened {a : SlotNo} :
      Effect s (.bcSopen a) { s with strm := if (s.slot a).len = 0 then .inactive else .active a 0 }
  | advanced {a : SlotNo} {k : Nat} (hs : s.strm = .active a k) :
      Effect s .bcSnext { s with strm := if (s.slot a).len ≤ 8 * (k + 1) then .inactive else .active a (k + 1) }
  | closed : Effect s .bcSclose { s with strm := .inactive }
  | configured {v : Bool} (hq : s.pqh = []) : Effect s (.pqCfg v) { s with pqInv := v }
  | pushed {key : Long} {val : Short} (hn : s.pqh.length ≠ s.par.pqCap) :
      Effect s (.pqPush key val) { s with pqh := heapPush (entryHigher s.pqInv) s.pqh ⟨key, val⟩ }
  | popped {r : Entry} {h : List Entry} {k : Nat}
      (hp : heapPop (entryHigher s.pqInv) s.par.pqTie Config.draw s.pqh s.draws = some (r, h, k)) :
      Effect s .pqPop { s with pqh := h, draws := k }
  | freqsCleared : Effect s .hcFclr { s with ft := [] }
  | freqPut {w : Long} {x : Sym} : Effect s (.hcFput w x) { s with ft := Table.put s.ft x w }
  | builtEmpty : Effect s .hcBuild { s with nodes := [], cwt := [] }
  | built {c : Built} (hne : s.ft ≠ []) (hb : buildCodec s.par Config.draw s.ft s.draws = some c) :
      Effect s .hcBuild { s with nodes := c.nodes, cwt := c.cwt, draws := c.k }
  | decodedNone {b : SlotNo} {n : Long} : Effect s (.hcDecode b n) { s with sb := [] }
  | decoded {b : SlotNo} {n : Long} {out : List Sym} {rest : List Bool} (hne : s.nodes ≠ [])
      (hn : n.toNat ≤ s.par.sbCap)
      (hd : decodeSyms s.nodes (s.nodes.length - 1) n.toNat (s.slot b).bits = .symbols out rest) :
      Effect s (.hcDecode b n) { s with sb := out }
  | bufferCleared : Effect s .sbClr { s with sb := [] }
  | symPushed {x : Sym} (hn : s.sb.length ≠ s.par.sbCap) : Effect s (.sbPush x) { s with sb := s.sb ++ [x] }

/-- How a command is answered: BUSY, for a locked destination or by PQ.CFG over a queue that is not empty; another
error; a response over the state itself, for a command that writes no slot; a response over the state it wrote. -/
inductive Answered (i : Instr) (s : State) : Answer → Prop
  | locked {a : SlotNo} (hw : slotWritten i = some a) (hl : s.locked a = true) : Answered i s (raise s .busy)
  | queueBusy {v : Bool} (hi : i = .pqCfg v) : Answered i s (raise s .busy)
  | error {st : Status} (hok : st ≠ .ok := by decide) (hbusy : st ≠ .busy := by decide) : Answered i s (raise s st)
  | read {fl : BitVec 8} {rs : Short} {rv : Long} (hw : slotWritten i = none := by rfl) :
      Answered i s (respond s fl rs rv)
  | write {u : State} {fl : BitVec 8} {rs : Short} {rv : Long} (he : Effect s i u) : Answered i s (respond u fl rs rv)

namespace Answered

/-- A check in front of the rest of a command (60_exceptions.md R270): the rest runs where the check does not hold. -/
theorem check {i : Instr} {s : State} {c : Prop} [Decidable c] {st : Status} {x : Answer} (hx : ¬ c → Answered i s x)
    (hok : st ≠ .ok := by decide) (hbusy : st ≠ .busy := by decide) :
    Answered i s (if c then Machine.raise s st else x) := by
  split
  · exact .error hok hbusy
  · next h => exact hx h

/-- The check for the stream lock, with which every command that writes a slot begins (R28). -/
theorem lockCheck {i : Instr} {s : State} {a : SlotNo} {x : Answer} (hw : slotWritten i = some a)
    (hx : s.locked a = false → Answered i s x) : Answered i s (if s.locked a then Machine.raise s .busy else x) := by
  cases hl : s.locked a with
  | true => exact .locked hw hl
  | false => exact hx hl

/-- Writing a slot that is not locked. -/
theorem writeSlot {i : Instr} {s : State} {a : SlotNo} {c : Container} {fl : BitVec 8} {rs : Short} {rv : Long}
    (hw : slotWritten i = some a) (hl : s.locked a = false) (he : SlotEdit s.par (s.slot a) i c) :
    Answered i s (Machine.respond (s.setSlot a c) fl rs rv) :=
  .write (.slot hw hl he)

/-- The body of BC.EXTEND and BC.EXTI (R133, R135). -/
theorem appendTo {i : Instr} {s : State} {a : SlotNo} {bs : List Bool} (hw : slotWritten i = some a)
    (he : (s.slot a).len + bs.length ≤ s.par.bcMaxBits →
      SlotEdit s.par (s.slot a) i ((s.slot a).append s.par.w bs)) : Answered i s (Machine.appendTo a bs s) :=
  .lockCheck hw fun hl => .check fun hc => .writeSlot hw hl (he (Nat.le_of_not_lt hc))

/-- The end of HC.CWGET and HC.ENCODE (R215, R220). -/
theorem storeInto {i : Instr} {s : State} {a : SlotNo} {bs : List Bool} (hw : slotWritten i = some a)
    (hl : s.locked a = false) (he : bs.length ≤ s.par.bcMaxBits →
      SlotEdit s.par (s.slot a) i ((s.slot a).replace s.par.w bs)) : Answered i s (Machine.storeInto a bs s) :=
  .check fun hc => .writeSlot hw hl (he (Nat.le_of_not_lt hc))

end Answered

/-! ### Commands that look something up -/

theorem execSysInfo_answered (k : Long) (s : State) : Answered (.sysInfo k) s (execSysInfo k s) := by
  unfold execSysInfo
  split
  · exact .error
  · exact .read

theorem execBcPop_answered (a : SlotNo) (s : State) : Answered (.bcPop a) s (execBcPop a s) := by
  refine .lockCheck rfl fun hl => ?_
  split
  · exact .error
  · exact .writeSlot rfl hl .pop

theorem execBcGet_answered (a : SlotNo) (j : Long) (s : State) : Answered (.bcGet a j) s (execBcGet a j s) := by
  unfold execBcGet
  split
  · exact .error
  · exact .read

theorem execBcSnext_answered (s : State) : Answered .bcSnext s (execBcSnext s) := by
  unfold execBcSnext
  split
  · exact .error
  · next a k hs => exact .write (.advanced hs)

theorem execPqCfg_answered (v : Bool) (s : State) : Answered (.pqCfg v) s (execPqCfg v s) := by
  unfold execPqCfg
  split
  · exact .queueBusy rfl
  · next hq => exact .write (.configured (by simpa using hq))

theorem execPqPop_answered (s : State) : Answered .pqPop s (execPqPop s) := by
  unfold execPqPop
  split
  · exact .error
  · next hp => exact .write (.popped hp)

theorem execPqPeek_answered (s : State) : Answered .pqPeek s (execPqPeek s) := by
  unfold execPqPeek
  split
  · exact .error
  · exact .read

theorem execHcFget_answered (x : Sym) (s : State) : Answered (.hcFget x) s (execHcFget x s) := by
  unfold execHcFget
  split
  · exact .read
  · exact .read

theorem execHcBuild_answered (s : State) : Answered .hcBuild s (execHcBuild s) := by
  unfold execHcBuild
  split
  · exact .write .builtEmpty
  · next hne =>
    split
    · exact .error
    · next hb => exact .write (.built (fun e => hne (by simp [e])) hb)

theorem execHcStat_answered (s : State) : Answered .hcStat s (execHcStat s) := by
  unfold execHcStat
  split
  · exact .read
  · exact .read

theorem execHcNode_answered (h : Long) (s : State) : Answered (.hcNode h) s (execHcNode h s) := by
  unfold execHcNode
  split
  · exact .error
  · exact .read
  · exact .read

theorem execHcCwget_answered (a : SlotNo) (x : Sym) (s : State) : Answered (.hcCwget a x) s (execHcCwget a x s) := by
  refine .lockCheck rfl fun hl => ?_
  split
  · exact .error
  · exact .storeInto rfl hl .cwget

theorem execHcEncode_answered (a : SlotNo) (s : State) : Answered (.hcEncode a) s (execHcEncode a s) := by
  refine .lockCheck rfl fun hl => ?_
  split
  · exact .error
  · exact .storeInto rfl hl .encode

theorem execHcDecode_answered (b : SlotNo) (n : Long) (s : State) :
    Answered (.hcDecode b n) s (execHcDecode b n s) := by
  unfold execHcDecode
  split
  · exact .write .decodedNone
  · refine .check fun hne => .check fun hn => ?_
    split
    · exact .error
    · next hd => exact .write (.decoded (fun e => hne (by simp [e])) (Nat.le_of_not_lt hn) hd)

theorem execSbGet_answered (j : Long) (s : State) : Answered (.sbGet j) s (execSbGet j s) := by
  unfold execSbGet
  split
  · exact .error
  · exact .read

/-- Every command, in every state. -/
theorem exec_answered (i : Instr) (s : State) : Answered i s (exec i s) := by
  cases i with
  | sysNop => exact .read
  | sysReset => exact .write .reset
  | sysInfo k => exact execSysInfo_answered k s
  | bcNew a n => exact .lockCheck rfl fun hl => .check fun hn => .writeSlot rfl hl (.new (Nat.le_of_not_lt hn))
  | bcPush a v => exact .lockCheck rfl fun hl => .check fun hc => .writeSlot rfl hl (.push hc)
  | bcPop a => exact execBcPop_answered a s
  | bcGet a j => exact execBcGet_answered a j s
  | bcSet a j v => exact .lockCheck rfl fun hl => .check fun _ => .writeSlot rfl hl .set
  | bcFill a v => exact .lockCheck rfl fun hl => .writeSlot rfl hl .fill
  | bcExtend a b => exact .appendTo rfl .extend
  | bcExti a imm n => exact .appendTo rfl .exti
  | bcClear a => exact .lockCheck rfl fun hl => .writeSlot rfl hl .clear
  | bcLen a => exact .read
  | bcCap a => exact .read
  | bcSopen a => exact .write .opened
  | bcSnext => exact execBcSnext_answered s
  | bcSclose => exact .write .closed
  | pqCfg v => exact execPqCfg_answered v s
  | pqPush key val => exact .check fun hn => .write (.pushed hn)
  | pqPop => exact execPqPop_answered s
  | pqPeek => exact execPqPeek_answered s
  | pqLen => exact .read
  | hcFclr => exact .write .freqsCleared
  | hcFput w x => exact .write .freqPut
  | hcFget x => exact execHcFget_answered x s
  | hcBuild => exact execHcBuild_answered s
  | hcStat => exact execHcStat_answered s
  | hcNode h => exact execHcNode_answered h s
  | hcCwget a x => exact execHcCwget_answered a x s
  | hcEncode a => exact execHcEncode_answered a s
  | hcDecode b n => exact execHcDecode_answered b n s
  | sbClr => exact .write .bufferCleared
  | sbPush x => exact .check fun hn => .write (.symPushed hn)
  | sbGet j => exact execSbGet_answered j s
  | sbLen => exact .read

/-- Everything a command that gives a next state can do: nothing but its response, or one of its writes and then its
response. -/
theorem exec_next {i : Instr} {s t : State} (h : exec i s = .next t) :
    ∃ u r, (u = s ∨ Effect s i u) ∧ t = { u with rsp := some r } := by
  have ha := exec_answered i s
  rw [h] at ha
  cases ha with
  | locked | queueBusy | error | read => exact ⟨s, _, .inl rfl, rfl⟩
  | write he => exact ⟨_, _, .inr he, rfl⟩

end Sys2Proof.Machine

/-! The invariants of the state (10_state.md R22 to R44): they hold after reset and every step keeps them. -/

namespace Sys2Proof

/-! ### Parameters and well-formed commands -/

theorem Params.Valid.w_pos {p : Params} (hp : p.Valid) : 0 < p.w := Nat.lt_of_lt_of_le (by decide) hp.w_ge

theorem Params.default_valid : Params.default.Valid := by constructor <;> decide

/-- The checks of R98 to R100 on a row of the opcode map are the well-formedness of the command it makes. -/
theorem OpRow.make_wf {p : Params} {f : Fields} :
    ∀ r ∈ opcodeMap, (r.make f).wf p = (r.slotsOk p f && r.symbolOk p f && r.literalOk f) := by
  simp only [opcodeMap, List.forall_mem_append, sysRows, bcRows, pqRows, hcRows, sbRows, List.forall_mem_cons]
  simp [OpRow.slotsOk, OpRow.symbolOk, OpRow.literalOk, Instr.wf, shiftRight_eq_zero_iff]

/-- A word that decodes gives a well-formed command (R101). -/
theorem decode_wf {p : Params} {w : PortWord} {i : Instr} (h : decode p w = .ok i) : i.wf p = true := by
  obtain ⟨r, hr, -, hslots, hsym, hlit, rfl⟩ := decodeFields_ok h
  rw [OpRow.make_wf r (rowOf_some hr).1, hslots, hsym, hlit]
  rfl

end Sys2Proof

namespace Sys2Proof.Machine

/-! ### Slots -/

theorem SlotOk.empty (p : Params) : SlotOk p Container.empty :=
  ⟨by simp [Container.empty, Container.len], by simp [Container.empty]⟩

/-- A new content no longer than the old one, in the same words. -/
theorem SlotOk.shorten {p : Params} {c : Container} (h : SlotOk p c) {bs : List Bool} (hl : bs.length ≤ c.len) :
    SlotOk p ⟨bs, c.nw⟩ :=
  ⟨Nat.le_trans hl h.room, h.bound⟩

/-- The words of a container made afresh (R121). -/
theorem SlotOk.new {p : Params} (hp : p.Valid) {n : Nat} (hn : n ≤ p.bcMaxBits) : SlotOk p ⟨[], ceilDiv n p.w⟩ :=
  ⟨Nat.zero_le _, by simpa [growTo] using growTo_bound hp.w_pos hp.bits_mod hn (nw := 0) (by simp)⟩

/-- Every write of a slot keeps R22. -/
theorem SlotEdit.slotOk {p : Params} {c d : Container} {i : Instr} (he : SlotEdit p c i d) (hp : p.Valid)
    (h : SlotOk p c) : SlotOk p d := by
  cases he with
  | new hn => exact .new hp hn
  | push hl =>
    have hlen : c.len ≤ p.bcMaxBits := Nat.le_trans h.room h.bound
    exact h.append hp _ (Nat.lt_of_le_of_ne hlen hl)
  | pop => exact h.shorten (by simp [Container.len])
  | set => exact h.shorten (by simp [Container.len])
  | fill => exact h.shorten (by simp)
  | clear => exact h.shorten (Nat.zero_le _)
  | extend hl | exti hl => exact h.append hp _ hl
  | cwget hl | encode hl => exact h.replace hp _ hl

theorem Inv.slotOk {s : State} (h : Inv s) (a : SlotNo) : SlotOk s.par (s.slot a) := by
  by_cases ha : s.hasSlot a
  · exact h.slots_ok _ (slot_mem ha)
  · rw [slot_of_not_hasSlot ha]
    exact .empty _

/-! ### The stream register -/

theorem streamOk_iff {s : State} :
    StreamOk s ↔ ∀ i k, s.strm = .active i k → i.toNat < s.par.nbc ∧ 8 * k < (s.slot i).len := by
  unfold StreamOk
  split
  · next hs => simp [hs]
  · next i k hs => simp [hs]

/-- Writing a slot that is not locked does not touch the slot of the stream (R28). -/
theorem StreamOk.setSlot {s : State} (h : StreamOk s) {a : SlotNo} (hl : s.locked a = false) (c : Container) :
    StreamOk (s.setSlot a c) := by
  refine streamOk_iff.2 fun i k hs => ?_
  have hi : i ≠ a := by
    rintro rfl
    exact Bool.false_ne_true (hl.symm.trans (locked_eq_true.2 ⟨k, hs⟩))
  rw [slot_setSlot_ne s c hi]
  exact streamOk_iff.1 h i k hs

/-- The stream register after BC.SOPEN (R143). -/
theorem StreamOk.opened {s : State} {a : SlotNo} (ha : a.toNat < s.par.nbc) :
    StreamOk { s with strm := if (s.slot a).len = 0 then .inactive else .active a 0 } := by
  refine streamOk_iff.2 fun i k hs => ?_
  by_cases hz : (s.slot a).len = 0
  · simp [hz] at hs
  · simp only [if_neg hz] at hs
    cases hs
    exact ⟨ha, Nat.pos_of_ne_zero hz⟩

/-- The stream register after BC.SNEXT (R145). -/
theorem StreamOk.advanced {s : State} (h : StreamOk s) {a : SlotNo} {k : Nat} (hs : s.strm = .active a k) :
    StreamOk { s with strm := if (s.slot a).len ≤ 8 * (k + 1) then .inactive else .active a (k + 1) } := by
  refine streamOk_iff.2 fun i j hs' => ?_
  by_cases hz : (s.slot a).len ≤ 8 * (k + 1)
  · simp [hz] at hs'
  · simp only [if_neg hz] at hs'
    cases hs'
    exact ⟨(streamOk_iff.1 h a k hs).1, Nat.lt_of_not_le hz⟩

/-! ### The other units -/

theorem HeapOrdered.nil {α : Type} (higher : α → α → Bool) : HeapOrdered higher ([] : List α) :=
  fun _ _ _ _ hx _ => by simp at hx

theorem CodecOk.nil (nsym : Nat) : CodecOk nsym [] [] := .inl ⟨rfl, rfl⟩

/-- What HC.DECODE puts in the buffer over a codec of a state: as many symbols as asked for, all below NSYM (R225). -/
theorem CodecOk.decodeSyms_symbols {nsym : Nat} {nodes : List Node} {cwt : Table (List Bool)}
    (h : CodecOk nsym nodes cwt) (hne : nodes ≠ []) {n : Nat} {bits rest : List Bool} {out : List Sym}
    (hd : decodeSyms nodes (nodes.length - 1) n bits = .symbols out rest) :
    out.length = n ∧ ∀ x ∈ out, x.toNat < nsym := by
  obtain ⟨he, -⟩ | ⟨m, hc⟩ := h
  · exact absurd he hne
  · obtain ht | ⟨out', rest', used, hs, -, hlen, hsyms⟩ := hc.decodeSyms_spec n bits
    · rw [hd] at ht
      cases ht
    · rw [hd] at hs
      cases hs
      exact ⟨hlen, hsyms⟩

/-! ### The invariants -/

/-- The invariants speak of neither the response nor the pending inputs. -/
theorem Inv.of_rsp_inputs {s : State} (h : Inv s) (r : Option Response) (is : List Input) :
    Inv { s with rsp := r, inputs := is } :=
  { h with }

theorem inv_resetWith {p : Params} (hp : p.Valid) : Inv (State.resetWith p) where
  params := hp
  slots_count := List.length_replicate
  slots_ok c hc := List.eq_of_mem_replicate hc ▸ .empty p
  stream := trivial
  queue_cap := Nat.zero_le _
  queue_order := .nil _
  freqs := .nil _
  codec := .nil _
  buffer_cap := Nat.zero_le _
  buffer_syms x hx := by simp [State.resetWith] at hx

theorem inv_doReset {s : State} (hp : s.par.Valid) : Inv s.doReset := { inv_resetWith hp with }

/-- Every write of a well-formed command keeps the invariants. -/
theorem Effect.inv {s u : State} {i : Instr} (he : Effect s i u) (hwf : i.wf s.par = true) (h : Inv s) : Inv u := by
  cases he with
  | reset => exact inv_doReset h.params
  | @slot _ a c hw hl he =>
    have hc : SlotOk s.par c := he.slotOk h.params (h.slotOk a)
    exact { h with
      slots_count := by simpa using h.slots_count
      slots_ok := fun d hd => (List.mem_or_eq_of_mem_set hd).elim (h.slots_ok d) fun e => e ▸ hc
      stream := h.stream.setSlot hl c }
  | opened => exact { h with stream := .opened (by simpa [Instr.wf] using hwf) }
  | advanced hs => exact { h with stream := h.stream.advanced hs }
  | closed => exact { h with stream := trivial }
  | configured hq => exact { h with queue_order := by rw [hq]; exact .nil _ }
  | pushed hn =>
    exact { h with
      queue_cap := by simpa using Nat.lt_of_le_of_ne h.queue_cap hn
      queue_order := heapPush_ordered (entryHigher_weakOrder _) h.queue_order _ }
  | popped hp =>
    obtain ⟨-, -, hord⟩ := heapPop_spec hp
    have hlen := heapPop_length hp
    exact { h with
      queue_cap := Nat.le_trans (Nat.le_succ _) (Nat.le_trans (Nat.le_of_eq hlen.symm) h.queue_cap)
      queue_order := (hord (entryHigher_weakOrder _) h.queue_order).1 }
  | freqsCleared => exact { h with freqs := .nil _ }
  | freqPut => exact { h with freqs := h.freqs.put (by simpa [Instr.wf] using hwf) _ }
  | builtEmpty => exact { h with codec := .nil _ }
  | built hne hb =>
    obtain ⟨c, hc, -, hbuilt, -⟩ := buildCodec_spec s.par Config.draw h.freqs hne s.draws
    cases hb.symm.trans hc
    exact { h with codec := .inr ⟨_, hbuilt⟩ }
  | decodedNone | bufferCleared => exact { h with buffer_cap := Nat.zero_le _, buffer_syms := by simp }
  | decoded hne hn hd =>
    obtain ⟨hlen, hsyms⟩ := h.codec.decodeSyms_symbols hne hd
    exact { h with buffer_cap := hlen ▸ hn, buffer_syms := hsyms }
  | symPushed hn =>
    have hx := by simpa [Instr.wf] using hwf
    exact { h with
      buffer_cap := by simpa using Nat.lt_of_le_of_ne h.buffer_cap hn
      buffer_syms := List.forall_mem_append.2 ⟨h.buffer_syms, List.forall_mem_singleton.2 hx⟩ }

/-- A well-formed command keeps the invariants. -/
theorem exec_inv {s t : State} {i : Instr} (h : Inv s) (hwf : i.wf s.par = true) (hexec : exec i s = .next t) :
    Inv t := by
  obtain ⟨u, r, rfl | he, rfl⟩ := exec_next hexec
  · exact h.of_rsp_inputs _ _
  · exact (he.inv hwf h).of_rsp_inputs _ _

/-- Settles O9: of the four things a step can be, only a decoded command writes a unit, and it is well formed. -/
theorem everyStepKeepsTheInvariants : Obligations.EveryStepKeepsTheInvariants := by
  intro s t h hstep
  obtain ⟨-, rfl⟩ | ⟨w, rest, e, -, -, rfl⟩ | ⟨w, rest, i, -, hdec, hexec⟩ | ⟨rest, -, rfl⟩ := step_next hstep
  · exact h
  · exact h.of_rsp_inputs _ _
  · exact exec_inv (h.of_rsp_inputs s.rsp rest) (decode_wf hdec) hexec
  · exact inv_doReset h.params

/-- Settles O10: every unit is empty after reset; the default record meets the constraints of R9. -/
theorem resetMeetsTheInvariants : Obligations.ResetMeetsTheInvariants :=
  ⟨fun _ hp => inv_resetWith hp, inv_resetWith Params.default_valid⟩

end Sys2Proof.Machine

/-! What a command leaves alone (10_state.md R24, R25, R28): who writes which unit, the stream lock, the storage of a
slot. Then the words of a container (20_memory.md) and the codewords (43_huffman_codec.md). -/

namespace Sys2Proof.Machine

/-! ### The units a command does not write -/

namespace Effect

variable {s u : State} {i : Instr}

/-- What becomes of slot `b`: nothing, or the slot edit of the command that writes it. -/
theorem slot_kept_or_edited (he : Effect s i u) (hr : i ≠ .sysReset) (b : SlotNo) :
    u.slot b = s.slot b ∨ slotWritten i = some b ∧ SlotEdit s.par (s.slot b) i (u.slot b) := by
  cases he with
  | reset => exact absurd rfl hr
  | @slot _ a c hw _ he =>
    by_cases ha : b = a
    · subst ha
      by_cases hs : s.hasSlot b
      · exact .inr ⟨hw, (slot_setSlot_same c hs).symm ▸ he⟩
      · exact .inl (by rw [setSlot_of_not_hasSlot hs])
    · exact .inl (slot_setSlot_ne s c ha)
  | _ => exact .inl rfl

theorem slot_kept (he : Effect s i u) (hr : i ≠ .sysReset) {b : SlotNo} (hb : slotWritten i ≠ some b) :
    u.slot b = s.slot b :=
  (he.slot_kept_or_edited hr b).resolve_right fun h => hb h.1

theorem strm_kept (he : Effect s i u) (hr : i ≠ .sysReset) (ho : ∀ a, i ≠ .bcSopen a) (hn : i ≠ .bcSnext)
    (hc : i ≠ .bcSclose) : u.strm = s.strm := by
  cases he with
  | reset => exact absurd rfl hr
  | opened => exact absurd rfl (ho _)
  | advanced => exact absurd rfl hn
  | closed => exact absurd rfl hc
  | _ => rfl

theorem pqInv_kept (he : Effect s i u) (hr : i ≠ .sysReset) (hc : ∀ v, i ≠ .pqCfg v) : u.pqInv = s.pqInv := by
  cases he with
  | reset => exact absurd rfl hr
  | configured => exact absurd rfl (hc _)
  | _ => rfl

theorem pqh_kept (he : Effect s i u) (hr : i ≠ .sysReset) (hpush : ∀ k v, i ≠ .pqPush k v) (hpop : i ≠ .pqPop) :
    u.pqh = s.pqh := by
  cases he with
  | reset => exact absurd rfl hr
  | pushed => exact absurd rfl (hpush _ _)
  | popped => exact absurd rfl hpop
  | _ => rfl

theorem ft_kept (he : Effect s i u) (hr : i ≠ .sysReset) (hclr : i ≠ .hcFclr) (hput : ∀ w x, i ≠ .hcFput w x) :
    u.ft = s.ft := by
  cases he with
  | reset => exact absurd rfl hr
  | freqsCleared => exact absurd rfl hclr
  | freqPut => exact absurd rfl (hput _ _)
  | _ => rfl

theorem codec_kept (he : Effect s i u) (hr : i ≠ .sysReset) (hb : i ≠ .hcBuild) :
    u.nodes = s.nodes ∧ u.cwt = s.cwt := by
  cases he with
  | reset => exact absurd rfl hr
  | builtEmpty | built => exact absurd rfl hb
  | _ => exact ⟨rfl, rfl⟩

theorem sb_kept (he : Effect s i u) (hr : i ≠ .sysReset) (hclr : i ≠ .sbClr) (hpush : ∀ x, i ≠ .sbPush x)
    (hdec : ∀ b n, i ≠ .hcDecode b n) : u.sb = s.sb := by
  cases he with
  | reset => exact absurd rfl hr
  | decodedNone | decoded => exact absurd rfl (hdec _ _)
  | bufferCleared => exact absurd rfl hclr
  | symPushed => exact absurd rfl (hpush _)
  | _ => rfl

end Effect

/-- Settles O15: a command's write, if it makes one, is that of one unit. -/
theorem eachUnitIsWrittenOnlyByItsCommands : Obligations.EachUnitIsWrittenOnlyByItsCommands := by
  intro i s t h hr
  obtain ⟨u, r, rfl | he, rfl⟩ := exec_next h
  · exact ⟨fun _ _ => rfl, fun _ _ _ => rfl, fun _ => rfl, fun _ _ => rfl, fun _ _ => rfl, fun _ => ⟨rfl, rfl⟩,
      fun _ _ _ => rfl⟩
  · exact ⟨fun _ => he.slot_kept hr, he.strm_kept hr, he.pqInv_kept hr, he.pqh_kept hr, he.ft_kept hr,
      he.codec_kept hr, he.sb_kept hr⟩

/-! ### The stream lock -/

/-- A command that would write a locked slot is answered BUSY (R28). -/
theorem exec_of_locked {i : Instr} {a : SlotNo} {s : State} (hw : slotWritten i = some a) (hl : s.locked a = true) :
    exec i s = raise s .busy := by
  have hbusy (x : Answer) : (if s.locked a then raise s .busy else x) = raise s .busy := if_pos hl
  cases i with
  | bcNew | bcPush | bcPop | bcSet | bcFill | bcExtend | bcExti | bcClear | hcCwget | hcEncode =>
    cases hw
    exact hbusy _
  | _ => cases hw

/-- BUSY has two causes: the command's destination is locked, or the command is PQ.CFG. -/
theorem busy_cause {i : Instr} {s t : State} {r : Response} (h : exec i s = .next t) (hr : t.rsp = some r)
    (hb : r.status = .busy) : (∃ a, slotWritten i = some a ∧ s.locked a = true) ∨ ∃ v, i = .pqCfg v := by
  have ha := exec_answered i s
  rw [h] at ha
  cases ha with
  | locked hw hl => exact .inl ⟨_, hw, hl⟩
  | queueBusy hi => exact .inr ⟨_, hi⟩
  | error _ hne =>
    cases hr
    exact absurd hb hne
  | read | write =>
    cases hr
    cases hb

/-- The commands that read slot `a` and do not write it (R25) are not answered BUSY while `a` is locked: they write no
slot, or, as one slot only is locked, an unlocked one. -/
theorem reader_not_busy {i : Instr} {a : SlotNo} {s t : State} {r : Response} (hl : s.locked a = true)
    (hw : ∀ c, slotWritten i = some c → c ≠ a) (hi : ∀ v, i ≠ .pqCfg v) (h : exec i s = .next t)
    (hr : t.rsp = some r) : r.status ≠ .busy := by
  intro hb
  obtain ⟨c, hc, hlc⟩ | ⟨v, hv⟩ := busy_cause h hr hb
  · exact hw c hc (locked_unique hlc hl)
  · exact hi v hv

/-- Settles O14: a writer of a slot begins with the check of its lock, and BUSY has no other cause in a reader. -/
theorem lockedSlotRefusesItsWriters : Obligations.LockedSlotRefusesItsWriters := by
  refine ⟨fun _ _ => locked_eq_true, fun _ _ _ hw hl => exec_of_locked hw hl, fun i a s t r hl hi => ?_⟩
  obtain ⟨j, rfl⟩ | rfl | rfl | rfl | rfl | ⟨c, hc, rfl⟩ | ⟨n, rfl⟩ := hi
  all_goals exact reader_not_busy hl (by simp [slotWritten, *]) (by simp)

/-- Settles O36: the stream register is not the command's to write, and its slot is locked. -/
theorem otherCommandsLeaveTheStreamAlone : Obligations.OtherCommandsLeaveTheStreamAlone := by
  intro i s t a k hs h hopen hnext hclose hreset
  obtain ⟨hslot, hstrm, -⟩ := eachUnitIsWrittenOnlyByItsCommands i s t h hreset
  refine ⟨hstrm hopen hnext hclose, ?_⟩
  by_cases hw : slotWritten i = some a
  · rw [exec_of_locked hw (locked_eq_true.2 ⟨k, hs⟩)] at h
    rw [raise_next h]
    rfl
  · exact hslot a hw

/-! ### The storage of a slot -/

/-- Every write of a slot but BC.NEW's keeps the words the slot has (R24). -/
theorem SlotEdit.nw_le {p : Params} {c d : Container} {i : Instr} (he : SlotEdit p c i d)
    (hn : ∀ a n, i ≠ .bcNew a n) : c.nw ≤ d.nw := by
  cases he with
  | new => exact absurd rfl (hn _ _)
  | push | extend | exti | cwget | encode => exact Nat.le_max_left _ _
  | pop | set | fill | clear => exact Nat.le_refl _

/-- BC.POP and BC.CLEAR keep exactly the words the slot has (R125, R137). -/
theorem SlotEdit.nw_eq {p : Params} {c d : Container} {i : Instr} {a : SlotNo} (he : SlotEdit p c i d)
    (hi : i = .bcPop a ∨ i = .bcClear a) : d.nw = c.nw := by
  obtain rfl | rfl := hi
  · cases he
    rfl
  · cases he
    rfl

theorem exec_slot_kept_or_edited {i : Instr} {s t : State} (h : exec i s = .next t) (hr : i ≠ .sysReset)
    (b : SlotNo) : t.slot b = s.slot b ∨ slotWritten i = some b ∧ SlotEdit s.par (s.slot b) i (t.slot b) := by
  obtain ⟨u, r, rfl | he, rfl⟩ := exec_next h
  · exact .inl rfl
  · exact he.slot_kept_or_edited hr b

/-- One bit more needs a word more exactly when the words are full. -/
theorem growTo_succ {w nw n : Nat} (hw : 0 < w) (hroom : n ≤ nw * w) :
    growTo w nw (n + 1) = if n = nw * w then nw + 1 else nw := by
  unfold growTo
  split
  · next hfull =>
    have hle : ceilDiv (n + 1) w ≤ nw + 1 := ceilDiv_le hw (by rw [Nat.add_mul]; omega)
    have hge : nw < ceilDiv (n + 1) w := by
      by_contra hlt
      have := le_ceilDiv_mul hw (n + 1)
      have := Nat.mul_le_mul_right w (Nat.le_of_not_lt hlt)
      omega
    omega
  · exact Nat.max_eq_left (ceilDiv_le hw (by omega))

/-- A push that is answered OK has appended its bit. -/
theorem bcPush_ok {s t : State} {a : SlotNo} {v : Bool} (ha : s.hasSlot a) (h : exec (.bcPush a v) s = .next t)
    (hok : t.answeredOk 0 0 0) : t.slot a = (s.slot a).append s.par.w [v] := by
  have hans := exec_answered (.bcPush a v) s
  rw [h] at hans
  cases hans with
  | locked | queueBusy => cases hok
  | error hne =>
    cases hok
    exact absurd rfl hne
  | read hw => cases hw
  | write he =>
    cases he with
    | slot hw _ he =>
      cases hw
      cases he
      exact slot_setSlot_same _ ha

/-- Settles O33: only BC.NEW makes a slot afresh; the other writes keep its words or add what the length needs. -/
theorem storageNeverShrinks : Obligations.StorageNeverShrinks := by
  refine ⟨fun i s t b h hr hn => ?_, fun i s t a b h hi => ?_, fun s t a v hw ha hroom h hok => ?_⟩
  · obtain e | ⟨hw, he⟩ := exec_slot_kept_or_edited h hr b
    · rw [e]
    · refine he.nw_le fun a n e => ?_
      subst e
      cases hw
      exact hn n rfl
  · have hr : i ≠ .sysReset := by rintro rfl; simp at hi
    obtain e | ⟨-, he⟩ := exec_slot_kept_or_edited h hr b
    · rw [e]
    · exact he.nw_eq hi
  · rw [bcPush_ok ha h hok]
    exact growTo_succ hw hroom

/-! ### The words of a container -/

/-- Words allocated beyond those of the store do not change a bit inside it. -/
theorem bitRead_append {w : Nat} (hw : 0 < w) {ws : Store} (more : Store) {j : Nat} (hj : j < ws.length * w) :
    bitRead w (ws ++ more) j = bitRead w ws j := by
  have hq : j / w < ws.length := (Nat.div_lt_iff_lt_mul hw).2 hj
  simp [bitRead, memReadWord, List.getElem?_append_left hq]

/-- Settles O37: the run of writes writes the appended bits and no other, in words that have room for them. -/
theorem wordWritesAppendTheBits : Obligations.WordWritesAppendTheBits := by
  intro w ws more c bs hw hb hmore hlen
  have hwords : (ws ++ more).length = growTo w c.nw (c.len + bs.length) := by
    rw [List.length_append, hb.words]
    exact hlen
  have hroom := growTo_room hw c.nw (c.len + bs.length)
  refine ⟨by simpa [Container.append] using hwords, bitWrites_width hw ?_ _ _, ?_, fun j b hj => ?_⟩
  · exact List.forall_mem_append.2 ⟨hb.width, hmore⟩
  · simpa [Container.append, Container.len] using hroom
  · rw [bitRead_bitWrites hw (hwords ▸ hroom)]
    by_cases hold : j < c.len
    · have hbit : c.bits[j]? = some b := (List.getElem?_append_left hold).symm.trans hj
      rw [if_neg (Nat.not_le_of_lt hold)]
      exact (bitRead_append hw more (hb.words ▸ Nat.lt_of_lt_of_le hold hb.room)).trans (hb.bits j b hbit)
    · have hnew : bs[j - c.len]? = some b := (List.getElem?_append_right (Nat.le_of_not_lt hold)).symm.trans hj
      rw [if_pos (Nat.le_of_not_lt hold), hnew]

/-! ### The codewords -/

/-- Settles O49: a codeword is a path from the root to a leaf, and a path to a leaf goes on to no other leaf. -/
theorem codewordsArePrefixFree : Obligations.CodewordsArePrefixFree := by
  rintro s x y cx cy h hne hx hy ⟨q, rfl⟩
  obtain ⟨-, hc⟩ | ⟨m, hc⟩ := h.codec
  · simp [hc] at hx
  · exact hne (follow_append_leaf ((hc.codeword x cx).1 hx) ((hc.codeword y _).1 hy)).2

end Sys2Proof.Machine

/-! What 20_memory.md says of the state's storage: a store of words and the container it backs (R60 to R64), the bytes
of a stream (R65 to R67), the commands that only read (R72), the widths of the result fields (R81). -/

namespace Sys2Proof

/-- There are at most 2^15 symbols (R9, R10). -/
theorem Params.Valid.nsym_le {p : Params} (hp : p.Valid) : p.nsym ≤ 2 ^ 15 :=
  Nat.pow_le_pow_right (by decide) hp.symw_le

end Sys2Proof

namespace Sys2Proof.Machine

/-! ### Bytes -/

/-- Settles O34: the bytes of `pack(B)`, their number, bound and bits. -/
theorem packedBytesAreLeastSignificantFirst : Obligations.PackedBytesAreLeastSignificantFirst := by
  refine fun bits => ⟨packBytes_length bits, fun k hk => ?_⟩
  refine ⟨streamByte bits k, packBytes_getElem? hk, streamByte_lt bits k, fun t ht => ?_⟩
  simp [streamByte_testBit, ht]

/-! ### A store of words and the container it backs -/

/-- The bit of a backing word at a position inside the length is the container's bit (R61, R62). -/
theorem Backs.testBit {w : Nat} {ws : Store} {c : Container} (hb : Backs w ws c) {j : Nat} {b : Bool}
    (hj : c.bits[j]? = some b) : (memReadWord ws (j / w)).testBit (j % w) = b := by
  have h := hb.bits j b hj
  rw [bitRead_eq] at h
  cases b <;> simpa using h

/-- The words of a backing store hold every position inside the length (R22). -/
theorem Backs.len_le {w : Nat} {ws : Store} {c : Container} (hb : Backs w ws c) : c.len ≤ ws.length * w :=
  hb.words ▸ hb.room

/-- BitWrite inside the length writes the container's bit (R63). -/
theorem Backs.bitWrite {w : Nat} {ws : Store} {c : Container} (hw : 0 < w) (hb : Backs w ws c) {j : Nat}
    (hj : j < c.len) (v : Bool) : Backs w (bitWrite w ws j v) ⟨c.bits.set j v, c.nw⟩ where
  words := by simpa using hb.words
  width := bitWrite_width hw hb.width j v
  room := by simpa [Container.len] using hb.room
  bits i b hi := by
    rw [bitRead_bitWrite hw (Nat.lt_of_lt_of_le hj hb.len_le)]
    by_cases hij : i = j
    · subst hij
      have hv : v = b := by simpa using (List.getElem?_set_self hj).symm.trans hi
      rw [if_pos rfl, hv]
    · rw [if_neg hij]
      exact hb.bits i b ((List.getElem?_set_ne (Ne.symm hij)).symm.trans hi)

/-- Every bit inside the words filled by BC.FILL reads as the value filled in (R131). -/
theorem bitRead_fillWords {w : Nat} (hw : 0 < w) {ws : Store} (v : Bool) {n j : Nat} (hn : n ≤ ws.length)
    (hj : j < n * w) : bitRead w (fillWords w ws v n) j = if v then 1 else 0 := by
  have hq : j / w < n := (Nat.div_lt_iff_lt_mul hw).2 hj
  rw [bitRead_eq, memReadWord_fillWords w ws v hn, if_pos hq]
  cases v with
  | false => simp
  | true => simp [Nat.testBit_two_pow_sub_one, Nat.mod_lt j hw]

/-- The word loop of BC.FILL over the words that the length needs fills the container (R131). -/
theorem Backs.fillWords {w : Nat} {ws : Store} {c : Container} (hw : 0 < w) (hb : Backs w ws c) (v : Bool) :
    Backs w (fillWords w ws v (ceilDiv c.len w)) ⟨List.replicate c.len v, c.nw⟩ where
  words := by simpa using hb.words
  width := fillWords_width hb.width v _
  room := by simpa [Container.len] using hb.room
  bits j b hj := by
    obtain ⟨hlen, rfl⟩ : j < c.len ∧ v = b := by simpa [List.getElem?_replicate] using hj
    exact bitRead_fillWords hw v (ceilDiv_le hw hb.len_le) (Nat.lt_of_lt_of_le hlen (le_ceilDiv_mul hw c.len))

/-- A store backs every shorter container: the bits cut off are among those with no defined value (R23). -/
theorem Backs.take {w : Nat} {ws : Store} {c : Container} (hb : Backs w ws c) (n : Nat) :
    Backs w ws ⟨c.bits.take n, c.nw⟩ where
  words := hb.words
  width := hb.width
  room := Nat.le_trans (List.length_take_le' n c.bits) hb.room
  bits j b hj := by
    obtain ⟨-, h⟩ : j < n ∧ c.bits[j]? = some b := by simpa [List.getElem?_take] using hj
    exact hb.bits j b h

/-- Settles O38: read, one-bit write, fill and shortening, each by its own lemma. -/
theorem wordStoreFollowsTheContainer : Obligations.WordStoreFollowsTheContainer :=
  fun _ _ _ hw hb => ⟨hb.bits, fun _ v hj => hb.bitWrite hw hj v, hb.fillWords hw, hb.take⟩

/-! ### A stream byte in its word -/

/-- An aligned byte lies in one word when W is a multiple of 8 (R67). -/
theorem byte_in_one_word {w : Nat} (hw : 0 < w) (h8 : w % 8 = 0) (k : Nat) {t : Nat} (ht : t < 8) :
    (8 * k + t) / w = 8 * k / w ∧ (8 * k + t) % w = 8 * k % w + t := by
  obtain ⟨v, rfl⟩ := Nat.dvd_of_mod_eq_zero h8
  have hlt : 8 * k % (8 * v) + t < 8 * v := by
    have hk : k % v < v := Nat.mod_lt k (by omega)
    rw [Nat.mul_mod_mul_left]
    omega
  have hsum : 8 * k + t = 8 * v * (8 * k / (8 * v)) + (8 * k % (8 * v) + t) := by
    rw [← Nat.add_assoc, Nat.div_add_mod]
  constructor
  · rw [hsum, Nat.mul_add_div hw, Nat.div_eq_of_lt hlt, Nat.add_zero]
  · rw [hsum, Nat.mul_add_mod, Nat.mod_eq_of_lt hlt]

/-- The bits of a byte taken from the words: those of the field at `8k`, inside the length (R66, R67). -/
theorem storeByte_testBit (w : Nat) (ws : Store) (len k t : Nat) :
    (storeByte w ws len k).testBit t =
      (decide (t < 8 ∧ 8 * k + t < len) && (memReadWord ws (8 * k / w)).testBit (8 * k % w + t)) := by
  have h255 : 255 = 2 ^ 8 - 1 := rfl
  have hmask : t < 8 ∧ t < min 8 (len - 8 * k) ↔ t < 8 ∧ 8 * k + t < len := by omega
  rw [storeByte, h255]
  simp only [Nat.testBit_and, Nat.testBit_shiftRight, Nat.testBit_two_pow_sub_one, ← hmask, Bool.decide_and]
  rw [Bool.and_assoc, Bool.and_comm]

/-- Settles O39: bit by bit, for the bits of a byte inside the length are in one word. -/
theorem streamByteIsTheMaskedWordField : Obligations.StreamByteIsTheMaskedWordField := by
  intro w ws c k hw h8 hb _
  refine Nat.eq_of_testBit_eq fun t => ?_
  rw [storeByte_testBit, streamByte_testBit]
  by_cases ht : t < 8
  · by_cases hlen : 8 * k + t < c.len
    · have hbit : c.bits[8 * k + t]? = some c.bits[8 * k + t] := List.getElem?_eq_getElem hlen
      obtain ⟨hdiv, hmod⟩ := byte_in_one_word hw h8 k ht
      have hword := hb.testBit hbit
      rw [hdiv, hmod] at hword
      simp [ht, hlen, hbit, hword]
    · have hbit : c.bits[8 * k + t]? = none := List.getElem?_eq_none (Nat.le_of_not_lt hlen)
      simp [hlen, hbit]
  · simp [ht]

/-! ### Commands that only read -/

/-- The commands that only read (R72). -/
def OnlyReads (i : Instr) : Prop :=
  i = .sysNop ∨ (∃ k, i = .sysInfo k) ∨ (∃ a j, i = .bcGet a j) ∨ (∃ a, i = .bcLen a) ∨ (∃ a, i = .bcCap a) ∨
    i = .pqPeek ∨ i = .pqLen ∨ (∃ x, i = .hcFget x) ∨ i = .hcStat ∨ (∃ h, i = .hcNode h) ∨ (∃ j, i = .sbGet j) ∨
    i = .sbLen

theorem OnlyReads.slotWritten {i : Instr} (hi : OnlyReads i) : slotWritten i = none := by
  obtain rfl | ⟨_, rfl⟩ | ⟨_, _, rfl⟩ | ⟨_, rfl⟩ | ⟨_, rfl⟩ | rfl | rfl | ⟨_, rfl⟩ | rfl | ⟨_, rfl⟩ | ⟨_, rfl⟩ | rfl :=
    hi <;> rfl

/-- None of the writes a command can make is made by a command that only reads. -/
theorem OnlyReads.no_effect {i : Instr} {s u : State} (hi : OnlyReads i) : ¬ Effect s i u := by
  intro he
  cases he with
  | slot hw => simp [hi.slotWritten] at hw
  | reset | opened | advanced | closed | configured | pushed | popped | freqsCleared | freqPut | builtEmpty | built
  | decodedNone | decoded | bufferCleared | symPushed => simp [OnlyReads] at hi

/-- No command reads the last response (log 3). -/
theorem exec_of_rsp (i : Instr) (s : State) (r : Option Response) : exec i { s with rsp := r } = exec i s := by
  cases i <;> rfl

/-- Settles O16: a command that only reads makes no write, and no command reads the response it leaves behind. -/
theorem readingCommandsAreIdempotent : Obligations.ReadingCommandsAreIdempotent := by
  intro i s t hi h
  obtain ⟨_, r, rfl | he, rfl⟩ := exec_next h
  · exact ⟨rfl, (exec_of_rsp i _ (some r)).trans h⟩
  · exact absurd he (OnlyReads.no_effect hi)

/-! ### Result fields -/

/-- The length and the capacity of a slot are below 2^32 (R22, R81). -/
theorem SlotOk.lt_two_pow {p : Params} {c : Container} (hp : p.Valid) (h : SlotOk p c) :
    c.len < 2 ^ 32 ∧ c.nw * p.w < 2 ^ 32 := by
  have hroom := h.room
  have hbound := h.bound
  have hmax := hp.bits_le
  have hw := hp.w_pos
  omega

/-- The arena has fewer than 2^16 nodes (R39, R81). -/
theorem CodecOk.length_lt {nsym : Nat} {nodes : List Node} {cwt : Table (List Bool)} (h : CodecOk nsym nodes cwt)
    (hn : nsym ≤ 2 ^ 15) : nodes.length < 2 ^ 16 := by
  obtain ⟨rfl, -⟩ | ⟨m, hm⟩ := h
  · decide
  · have hsize := hm.size
    have hle := hm.symbols_le
    omega

/-- Settles O18: each number by its bound in the invariants. -/
theorem lengthsFitTheirFields : Obligations.LengthsFitTheirFields := by
  intro s h
  have hp := h.params
  have hnodes : s.nodes.length < 2 ^ 16 := h.codec.length_lt hp.nsym_le
  refine ⟨fun a _ => ?_, longOf_toNat ?_, longOf_toNat ?_, longOf_toNat ?_, shortOf_toNat ?_⟩
  · obtain ⟨hlen, hcap⟩ := (h.slotOk a).lt_two_pow hp
    exact ⟨longOf_toNat hlen, longOf_toNat hcap⟩
  · exact Nat.lt_of_le_of_lt (h.queue_cap.trans hp.pqCap_le) (by decide)
  · exact Nat.lt_of_le_of_lt (h.buffer_cap.trans hp.sbCap_le) (by decide)
  · exact Nat.lt_trans hnodes (by decide)
  · exact Nat.lt_of_le_of_lt (Nat.sub_le _ _) hnodes

end Sys2Proof.Machine

/-! The encoding (30_encoding.md): a command and its word determine each other (R91 to R101), the words that name no
command, both port words as numbers, and the expansion of BC.BITS (R103). -/

namespace Sys2Proof

/-! ### A command and its fields -/

@[simp] theorem Fields.bit_bitShort (op : BitVec 8) (a b : SlotNo) (v : Bool) (imm : Long) :
    Fields.bit ⟨op, a, b, bitShort v, imm⟩ = v := bitShort_getLsbD v

/-- The bit operand spells the whole `s` field when `s[15:1]` is zero (R97). -/
theorem Fields.bitShort_bit {f : Fields} (h : f.s.extractLsb' 1 15 = 0) : bitShort f.bit = f.s := bitShort_of_high h

/-- Every command has a row of the opcode map: its unused fields are zero (R97), and the row makes it of its fields. -/
theorem Instr.row_of_fields (i : Instr) :
    ∃ r, rowOf i.fields.op = some r ∧ r.unusedZero i.fields = true ∧ r.make i.fields = i := by
  cases i with
  | bcPush a v | bcSet a j v | bcFill a v | pqCfg v =>
    exact ⟨_, rfl, by simp [OpRow.unusedZero, Instr.fields], by simp [Instr.fields]⟩
  | _ => exact ⟨_, rfl, rfl, rfl⟩

/-- The command a row makes of fields with that opcode, zero where the row uses none (R97), has exactly these fields. -/
theorem OpRow.fields_make {f : Fields} :
    ∀ r ∈ opcodeMap, r.op = f.op → r.unusedZero f = true → (r.make f).fields = f := by
  obtain ⟨op, a, b, s, imm⟩ := f
  simp only [opcodeMap, List.forall_mem_append, sysRows, bcRows, pqRows, hcRows, sbRows, List.forall_mem_cons]
  simp +contextual [OpRow.unusedZero, Instr.fields, Fields.bitShort_bit]

/-- The fields of a well-formed command decode to it. -/
theorem decodeFields_fields {p : Params} {i : Instr} (h : i.wf p = true) : decodeFields p i.fields = .ok i := by
  obtain ⟨r, hr, hunused, hmake⟩ := i.row_of_fields
  have hchecks : (r.slotsOk p i.fields && r.symbolOk p i.fields && r.literalOk i.fields) = true := by
    rw [← OpRow.make_wf r (rowOf_some hr).1, hmake, h]
  simp only [Bool.and_eq_true] at hchecks
  obtain ⟨⟨hslots, hsym⟩, hlit⟩ := hchecks
  simp [decodeFields_of_row p hr, hunused, hslots, hsym, hlit, hmake]

/-- The fields of what a word decodes to are the word's fields. -/
theorem fields_of_decode {p : Params} {w : PortWord} {i : Instr} (h : decode p w = .ok i) :
    i.fields = Fields.ofWord w := by
  obtain ⟨r, hr, hunused, -, -, -, rfl⟩ := decodeFields_ok h
  obtain ⟨hmem, hop⟩ := rowOf_some hr
  exact OpRow.fields_make r hmem hop hunused

/-- Settles O1: the word splits into the command's fields, and the row of its opcode makes the command of them. -/
theorem decodeOfEncodeIsTheCommand : Obligations.DecodeOfEncodeIsTheCommand := by
  intro p i h
  rw [encode, decode_toWord, decodeFields_fields h]

/-- Settles O2: the command has the word's fields, and a word is the word of its fields. -/
theorem encodeOfDecodeIsTheWord : Obligations.EncodeOfDecodeIsTheWord := by
  intro p w i h
  refine ⟨?_, decode_wf h⟩
  rw [encode, fields_of_decode h, Fields.toWord_ofWord]

/-- Settles O3: each of the nine words is closed, and the decoder reads it. -/
theorem wordsFromTheOpcodeMapDecode : Obligations.WordsFromTheOpcodeMapDecode := by
  unfold Obligations.WordsFromTheOpcodeMapDecode
  decide

/-! ### Reserved opcodes -/

/-- The reserved opcode values (R96). -/
abbrev ReservedOpcode (n : Nat) : Prop :=
  0x03 ≤ n ∧ n ≤ 0x0F ∨ n = 0x1E ∨ n = 0x1F ∨ 0x25 ≤ n ∧ n ≤ 0x2F ∨ 0x39 ≤ n ∧ n ≤ 0x3F ∨ 0x44 ≤ n

theorem opcodeMap_not_reserved : ∀ r ∈ opcodeMap, ¬ ReservedOpcode r.op.toNat := by decide

theorem rowOf_of_reserved {op : BitVec 8} (h : ReservedOpcode op.toNat) : rowOf op = none := by
  refine List.find?_eq_none.mpr fun r hr hop => opcodeMap_not_reserved r hr ?_
  rwa [eq_of_beq hop]

/-- A word with a reserved opcode does not decode (R101, step 2). -/
theorem decode_of_reserved (p : Params) {w : PortWord} (h : ReservedOpcode (w.toNat % 256)) :
    decode p w = .error .reservedOpcode := by
  have hrow : rowOf (Fields.ofWord w).op = none := rowOf_of_reserved (by simpa [Fields.ofWord] using h)
  simp only [decode, decodeFields, hrow]

/-! ### Port words as numbers -/

/-- Two fields put together and widened are the lower one, and the upper one shifted by the lower one's width. -/
theorem setWidth_append_eq_or {m n : Nat} (k : Nat) (hi : BitVec m) (lo : BitVec n) :
    (hi ++ lo).setWidth k = lo.setWidth k ||| hi.setWidth k <<< n := by
  apply BitVec.eq_of_getLsbD_eq
  intro i hik
  rcases Nat.lt_or_ge i n with hin | hin
  · simp [BitVec.getLsbD_append, hik, hin]
  · have hlo : lo.getLsbD i = false := BitVec.getLsbD_of_ge lo i hin
    simp [BitVec.getLsbD_append, hik, Nat.not_lt.mpr hin, hlo]

/-- Settles O4: both words are fields put together, the first in the lowest place. -/
theorem portWordsAsNumbers : Obligations.PortWordsAsNumbers := by
  constructor
  · intro i
    rw [← BitVec.setWidth_eq (encode i), encode, Fields.toWord]
    simp only [setWidth_append_eq_or, BitVec.shiftLeft_or_distrib, ← BitVec.shiftLeft_add, BitVec.or_assoc]
  · intro r
    rw [← BitVec.setWidth_eq r.word, Machine.Response.word]
    simp only [setWidth_append_eq_or, BitVec.shiftLeft_or_distrib, ← BitVec.shiftLeft_add, BitVec.or_assoc]

end Sys2Proof

namespace Sys2Proof.Machine

/-! ### The step on a command word -/

/-- A word that does not decode is answered ILLEGAL_COMMAND and changes nothing but that it is taken (R101). -/
theorem step_of_decode_error {s : State} {w : PortWord} {rest : List Input} {e : Illegal}
    (hin : s.inputs = .command w :: rest) (hdec : decode s.par w = .error e) :
    EndsWith .illegalCommand { s with inputs := rest } (step s) := by
  simp only [step, hin, perform, hdec]
  rfl

/-- A word that decodes is performed, on the state with the word taken (R101). -/
theorem step_of_decode_ok {s : State} {w : PortWord} {rest : List Input} {i : Instr}
    (hin : s.inputs = .command w :: rest) (hdec : decode s.par w = .ok i) :
    step s = exec i { s with inputs := rest } := by
  simp only [step, hin, perform, hdec]

/-- Settles O5: an opcode of the reserved ranges has no row. -/
theorem reservedOpcodesAreRefused : Obligations.ReservedOpcodesAreRefused :=
  fun s _ _ hin hop => step_of_decode_error hin (decode_of_reserved s.par hop)

/-- Settles O6: what decodes has one spelling (O2), so a word of no well-formed command does not decode. -/
theorem wordsOfNoCommandAreRefused : Obligations.WordsOfNoCommandAreRefused := by
  intro s w rest hin hno
  cases hdec : decode s.par w with
  | error e => exact step_of_decode_error hin hdec
  | ok i =>
    obtain ⟨hword, hwf⟩ := encodeOfDecodeIsTheWord s.par w i hdec
    exact absurd hword (hno i hwf)

/-- Settles O7: what decodes is well formed, and the step performs it. -/
theorem stepRunsTheDecodedCommand : Obligations.StepRunsTheDecodedCommand :=
  fun _ _ _ _ hin hdec => ⟨decode_wf hdec, step_of_decode_ok hin hdec⟩

/-! ### BC.BITS -/

/-- The BC.EXTI of one run of a literal bit string (R103): bit `t` of the literal is the run's character `t`. -/
def runCommand (a : SlotNo) (run : List Bool) : Instr :=
  .bcExti a (BitVec.ofNat 32 (packBits run)) (BitVec.ofNat 16 run.length)

/-- With fuel for the string, the expansion is one command for each of its runs. -/
theorem bitRuns_eq_map (a : SlotNo) (fuel : Nat) (bits : List Bool) (hfuel : bits.length ≤ fuel) :
    ∃ runs : List (List Bool), runs.flatten = bits ∧ bitRuns a fuel bits = runs.map (runCommand a) ∧
      ∀ run ∈ runs, run.length ≤ 32 := by
  induction fuel generalizing bits with
  | zero => exact ⟨[], by simpa using hfuel, rfl, by simp⟩
  | succ fuel ih =>
    cases bits with
    | nil => exact ⟨[], rfl, rfl, by simp⟩
    | cons b bs =>
      have hrest : ((b :: bs).drop 32).length ≤ fuel := by
        simp only [List.length_drop, List.length_cons] at hfuel ⊢
        omega
      obtain ⟨runs, hflat, hcmds, hlen⟩ := ih _ hrest
      refine ⟨(b :: bs).take 32 :: runs, ?_, ?_, List.forall_mem_cons.mpr ⟨List.length_take_le _ _, hlen⟩⟩
      · rw [List.flatten_cons, hflat, List.take_append_drop]
      · rw [bitRuns, hcmds]
        rfl

/-- The count of a run of at most 32 bits is its length. -/
theorem runLength_toNat {run : List Bool} (h : run.length ≤ 32) : (BitVec.ofNat 16 run.length).toNat = run.length :=
  shortOf_toNat (Nat.lt_of_le_of_lt h (by decide))

/-- The literal of a run of at most 32 bits is the run, packed. -/
theorem runLiteral_toNat {run : List Bool} (h : run.length ≤ 32) :
    (BitVec.ofNat 32 (packBits run)).toNat = packBits run :=
  longOf_toNat (Nat.lt_of_lt_of_le (packBits_lt run) (Nat.pow_le_pow_right (by decide) h))

theorem runCommand_wf {p : Params} {a : SlotNo} {run : List Bool} (ha : slotInRange p a) (h : run.length ≤ 32) :
    (runCommand a run).wf p = true := by
  simp [runCommand, Instr.wf, runLength_toNat h, runLiteral_toNat h, ha, h, packBits_lt]

/-- The literal bits of a run's command are the run. -/
theorem literalBits_packBits {run : List Bool} (h : run.length ≤ 32) :
    literalBits (BitVec.ofNat 32 (packBits run)) run.length = run := by
  apply List.ext_getElem (literalBits_length _ _)
  intro t _ ht
  have hbit : (packBits run).testBit t = run[t] := by simp [packBits_testBit, ht]
  simp [literalBits, ← BitVec.testBit_toNat, runLiteral_toNat h, hbit]

/-- Settles O60: the runs of the string, each with its command. -/
theorem bcBitsExpandsToTheString : Obligations.BcBitsExpandsToTheString := by
  intro p a bits ha
  obtain ⟨runs, hflat, hcmds, hlen⟩ := bitRuns_eq_map a bits.length bits (Nat.le_refl _)
  have hexpand : (Pseudo.bcBits a bits).expand = runs.map (runCommand a) := hcmds
  refine ⟨runs, hflat, by rw [hexpand, List.length_map], fun k run hk => ?_⟩
  have h32 : run.length ≤ 32 := hlen run (List.mem_of_getElem? hk)
  refine ⟨h32, _, _, by rw [hexpand, List.getElem?_map, hk]; rfl, runCommand_wf ha h32, ?_⟩
  rw [runLength_toNat h32, literalBits_packBits h32]

end Sys2Proof.Machine

/-! The bit-container commands (41_bit_container.md): the checks and the writes of the slot commands (R120 to R137),
the commands that only read a slot (R127, R139, R141), and the byte stream (R143 to R150). -/

namespace Sys2Proof.Machine

/-! ### The checks of a command that writes a slot (R120) -/

/-- The rest of a command runs where its slot is not locked. -/
theorem lockCheck_passed {s : State} {a : SlotNo} (hl : s.locked a = false) (x : Answer) :
    (if s.locked a then raise s .busy else x) = x := by
  simp [hl]

/-- A second check that holds on an unlocked slot ends the command. -/
theorem secondCheck_taken {s : State} {a : SlotNo} {c : Prop} [Decidable c] (hl : s.locked a = false) (hc : c)
    (st : Status) (x : Answer) :
    (if s.locked a then raise s .busy else if c then raise s st else x) = raise s st :=
  (lockCheck_passed hl _).trans (if_pos hc)

/-- The rest of a command runs where its slot is not locked and its second check does not hold. -/
theorem secondCheck_passed {s : State} {a : SlotNo} {c : Prop} [Decidable c] (hl : s.locked a = false) (hc : ¬ c)
    (st : Status) (x : Answer) :
    (if s.locked a then raise s .busy else if c then raise s st else x) = x :=
  (lockCheck_passed hl _).trans (if_neg hc)

/-- What a command does that comes to writing slot `a` and responding. -/
theorem writes_slot {x : Answer} {s : State} {a : SlotNo} {c : Container} {fl : BitVec 8} {rs : Short} {rv : Long}
    (hx : x = respond (s.setSlot a c) fl rs rv) (ha : s.hasSlot a) :
    ∃ t, x = .next t ∧ t.answeredOk fl rs rv ∧ OnlySlotChanged a s t ∧ t.slot a = c :=
  hx ▸ respond_setSlot ha c fl rs rv

/-- The same, with the slot's bits and words each on its own. -/
theorem writes_bits_nw {x : Answer} {s : State} {a : SlotNo} {c : Container} {fl : BitVec 8} {rs : Short} {rv : Long}
    (hx : x = respond (s.setSlot a c) fl rs rv) (ha : s.hasSlot a) :
    ∃ t, x = .next t ∧ t.answeredOk fl rs rv ∧ OnlySlotChanged a s t ∧ (t.slot a).bits = c.bits ∧
      (t.slot a).nw = c.nw := by
  obtain ⟨t, hnext, hok, hframe, hslot⟩ := writes_slot hx ha
  exact ⟨t, hnext, hok, hframe, by rw [hslot], by rw [hslot]⟩

/-! ### A container with bits appended -/

@[simp] theorem Container.append_bits (w : Nat) (c : Container) (bs : List Bool) :
    (c.append w bs).bits = c.bits ++ bs := rfl

@[simp] theorem Container.append_nw (w : Nat) (c : Container) (bs : List Bool) :
    (c.append w bs).nw = max c.nw (ceilDiv (c.len + bs.length) w) := rfl

@[simp] theorem Container.append_len (w : Nat) (c : Container) (bs : List Bool) :
    (c.append w bs).len = c.len + bs.length := List.length_append

/-! ### Commands that write a slot -/

/-- Settles O21: BUSY, CAPACITY_EXCEEDED, or the slot made afresh. -/
theorem bcNewCreatesTheSlotAfresh : Obligations.BcNewCreatesTheSlotAfresh := by
  refine fun s a n => ⟨rfl, rfl, exec_of_locked rfl, fun hl hc => secondCheck_taken hl hc _ _, fun ha hl hc => ?_⟩
  have hx : exec (.bcNew a n) s = respondOk (s.setSlot a ⟨[], ceilDiv n.toNat s.par.w⟩) :=
    secondCheck_passed hl (Nat.not_lt_of_le hc) _ _
  exact writes_bits_nw hx ha

/-- Settles O22: BUSY, CAPACITY_EXCEEDED, or the bit appended. -/
theorem bcPushAppendsOneBit : Obligations.BcPushAppendsOneBit := by
  refine fun s a v => ⟨rfl, rfl, exec_of_locked rfl, fun hl hc => secondCheck_taken hl hc _ _, fun ha hl hc => ?_⟩
  have hx : exec (.bcPush a v) s = respondOk (s.setSlot a ((s.slot a).append s.par.w [v])) :=
    secondCheck_passed hl hc _ _
  exact writes_bits_nw hx ha

theorem execBcPop_empty {s : State} {a : SlotNo} (hl : s.locked a = false) (hb : (s.slot a).bits = []) :
    execBcPop a s = raise s .empty := by
  simp [execBcPop, hl, hb]

theorem execBcPop_ok {s : State} {a : SlotNo} {bs : List Bool} {v : Bool} (hl : s.locked a = false)
    (hb : (s.slot a).bits = bs ++ [v]) :
    execBcPop a s = respond (s.setSlot a ⟨bs, (s.slot a).nw⟩) 0 0 (longOfBit v) := by
  simp [execBcPop, hl, hb]

/-- Settles O23: BUSY, EMPTY, or the last bit answered and removed. -/
theorem bcPopRemovesTheLastBit : Obligations.BcPopRemovesTheLastBit := by
  refine fun s a => ⟨rfl, rfl, exec_of_locked rfl, fun hl hz => ?_, fun bs v ha hl hb => ?_⟩
  · exact execBcPop_empty hl (List.eq_nil_of_length_eq_zero hz)
  · exact writes_bits_nw (execBcPop_ok hl hb) ha

/-- Settles O25: BUSY, OUT_OF_RANGE, or one element of the list of bits replaced. -/
theorem bcSetWritesOneBit : Obligations.BcSetWritesOneBit := by
  refine fun s a j v => ⟨rfl, rfl, exec_of_locked rfl, fun hl hj => secondCheck_taken hl hj _ _, fun ha hl hj => ?_⟩
  have hx : exec (.bcSet a j v) s = respondOk (s.setSlot a ⟨(s.slot a).bits.set j.toNat v, (s.slot a).nw⟩) :=
    secondCheck_passed hl (Nat.not_le_of_lt hj) _ _
  obtain ⟨t, hnext, hok, hframe, hslot⟩ := writes_slot hx ha
  refine ⟨t, hnext, hok, hframe, ?_⟩
  rw [hslot]
  exact ⟨List.length_set, rfl, List.getElem?_set_self hj, fun k hk => List.getElem?_set_ne hk.symm⟩

/-- Settles O26: BUSY, or the bits replaced by as many copies of the value. -/
theorem bcFillSetsEveryBit : Obligations.BcFillSetsEveryBit := by
  refine fun s a v => ⟨rfl, rfl, exec_of_locked rfl, fun ha hl => ?_⟩
  have hx : exec (.bcFill a v) s = respondOk (s.setSlot a ⟨List.replicate (s.slot a).len v, (s.slot a).nw⟩) :=
    lockCheck_passed hl _
  obtain ⟨t, hnext, hok, hframe, hslot⟩ := writes_slot hx ha
  refine ⟨t, hnext, hok, hframe, ?_⟩
  rw [hslot]
  exact ⟨List.length_replicate, rfl, fun k hk => List.getElem?_replicate_of_lt hk⟩

/-- Settles O27: the ends of `appendTo`, with the bits of slot `b` in the state before. -/
theorem bcExtendAppendsTheSource : Obligations.BcExtendAppendsTheSource := by
  refine fun s a b => ⟨rfl, rfl, exec_of_locked rfl, fun hl hc => appendTo_capacity hl hc, fun ha hl hc => ?_⟩
  obtain ⟨t, hnext, hok, hframe, hslot⟩ := appendTo_ok (bs := (s.slot b).bits) ha hl hc
  exact ⟨t, hnext, hok, hframe, by rw [hslot, Container.append_bits], by rw [hslot, Container.append_nw]; rfl⟩

/-- Settles O28: the ends of `appendTo`, with the bits of the literal. -/
theorem bcExtiAppendsTheLiteral : Obligations.BcExtiAppendsTheLiteral := by
  intro s a imm n
  have hn : (literalBits imm n.toNat).length = n.toNat := literalBits_length imm n.toNat
  refine ⟨rfl, rfl, exec_of_locked rfl, fun hl hc => ?_, fun ha hl hc => ?_⟩
  · exact appendTo_capacity hl (hn.symm ▸ hc)
  · obtain ⟨t, hnext, hok, hframe, hslot⟩ := appendTo_ok ha hl (hn.symm ▸ hc)
    rw [hn] at hok
    refine ⟨t, hnext, hok, hframe, by simp [hslot], fun k hk => ?_, fun k hk => ?_, by simp [hslot]⟩
    · rw [hslot, Container.append_bits, List.getElem?_append_left hk]
    · rw [hslot, Container.append_bits, Container.len, List.getElem?_append_right (Nat.le_add_right _ _),
        Nat.add_sub_cancel_left, literalBits_getElem? hk]

/-- Settles O29: BUSY, or the bits replaced by none. -/
theorem bcClearKeepsStorage : Obligations.BcClearKeepsStorage := by
  refine fun s a => ⟨rfl, rfl, exec_of_locked rfl, fun ha hl => ?_⟩
  have hx : exec (.bcClear a) s = respondOk (s.setSlot a ⟨[], (s.slot a).nw⟩) := lockCheck_passed hl _
  exact writes_bits_nw hx ha

/-! ### Commands that only read a slot -/

theorem execBcGet_outOfRange {s : State} {a : SlotNo} {j : Long} (hj : (s.slot a).len ≤ j.toNat) :
    execBcGet a j s = raise s .outOfRange := by
  simp only [execBcGet, List.getElem?_eq_none hj]

theorem execBcGet_ok {s : State} {a : SlotNo} {j : Long} {v : Bool} (hv : (s.slot a).bits[j.toNat]? = some v) :
    execBcGet a j s = respond s 0 0 (longOfBit v) := by
  simp only [execBcGet, hv]

/-- Settles O24: the bit looked up, locked or not. -/
theorem bcGetReadsTheBit : Obligations.BcGetReadsTheBit :=
  fun _ _ _ => ⟨rfl, rfl, execBcGet_outOfRange, fun _ hv => execBcGet_ok hv⟩

/-- The "empty" flag as a number (R94). -/
theorem emptyFlag_eq (n : Nat) : emptyFlag n = if n = 0 then 1 else 0 := by
  simp [emptyFlag, flag0]

/-- Settles O30: both answer at once, over the state as it is. -/
theorem bcLenAndCap : Obligations.BcLenAndCap := by
  refine fun s a => ⟨rfl, rfl, ?_, rfl, rfl, rfl⟩
  rw [← emptyFlag_eq]
  rfl

/-! ### The byte stream -/

/-- Settles O31: both write the stream register and nothing else. -/
theorem streamOpensAndCloses : Obligations.StreamOpensAndCloses :=
  fun _ _ => ⟨rfl, rfl, ⟨_, rfl, rfl, rfl, rfl⟩, rfl, rfl, ⟨_, rfl, rfl, rfl, rfl⟩⟩

theorem execBcSnext_inactive {s : State} (h : s.strm = .inactive) : execBcSnext s = raise s .endOfStream := by
  simp only [execBcSnext, h]

theorem execBcSnext_active {s : State} {i : SlotNo} {k : Nat} (h : s.strm = .active i k) :
    execBcSnext s =
      respond { s with strm := if (s.slot i).len ≤ 8 * (k + 1) then .inactive else .active i (k + 1) } 0
        (shortOf (streamByte (s.slot i).bits k)) 0 := by
  simp only [execBcSnext, h]

/-- The bits of a stream byte in the `rs` field (R66, R145). -/
theorem shortOf_streamByte_getLsbD (bits : List Bool) (k : Nat) {n : Nat} (hn : n < 16) :
    (shortOf (streamByte bits k)).getLsbD n = (decide (n < 8) && (bits[8 * k + n]?).getD false) := by
  rw [shortOf, BitVec.getLsbD_ofNat, decide_eq_true hn, Bool.true_and, streamByte_testBit]

/-- Settles O32: END_OF_STREAM, or the byte at the stream's place and the register moved on. -/
theorem bcSnextDeliversTheNextByte : Obligations.BcSnextDeliversTheNextByte := by
  refine fun s => ⟨rfl, rfl, execBcSnext_inactive, fun i k h => ?_⟩
  exact ⟨_, _, execBcSnext_active h, rfl, rfl, fun n hn => shortOf_streamByte_getLsbD _ k hn, rfl⟩

/-! ### A whole stream (R150) -/

/-- The stream over slot `a` is before its byte `k`: retired when the slot has no bit there, as BC.SOPEN and BC.SNEXT
leave it (R143, R145). -/
def StreamAt (s : State) (a : SlotNo) (k : Nat) : Prop :=
  s.strm = if (s.slot a).len ≤ 8 * k then .inactive else .active a k

theorem bcSopen_streamAt {s t : State} {a : SlotNo} (h : exec (.bcSopen a) s = .next t) :
    t.slot a = s.slot a ∧ StreamAt t a 0 := by
  rw [respond_next h]
  refine ⟨rfl, ?_⟩
  simp only [StreamAt, Nat.mul_zero, Nat.le_zero]
  rfl

/-- With a byte left, BC.SNEXT delivers it and goes on to the next. -/
theorem bcSnext_streamAt {s : State} {a : SlotNo} {k : Nat} (h : StreamAt s a k) (hk : 8 * k < (s.slot a).len) :
    ∃ t, exec .bcSnext s = .next t ∧ t.answeredOk 0 (shortOf (streamByte (s.slot a).bits k)) 0 ∧
      t.slot a = s.slot a ∧ StreamAt t a (k + 1) :=
  ⟨_, execBcSnext_active (h.trans (if_neg (Nat.not_le_of_lt hk))), rfl, rfl, rfl⟩

/-- A command that is answered OK, issued once more than a run of it. -/
theorem issueTimes_succ {i : Instr} {s t u : State} {n : Nat} {fl : BitVec 8} {rs : Short} {rv : Long}
    {rest : List Response} (h : exec i s = .next t) (hok : t.answeredOk fl rs rv)
    (hrest : issueTimes i n t = some (rest, u)) :
    issueTimes i (n + 1) s = some (⟨.ok, fl, rs, rv⟩ :: rest, u) := by
  have hrsp : t.rsp = some ⟨.ok, fl, rs, rv⟩ := hok
  simp [issueTimes, h, hrsp, hrest]

/-- The `n` bytes from byte `k` on to the end of the container, delivered by `n` BC.SNEXT. -/
theorem issueTimes_bcSnext {a : SlotNo} (n : Nat) {s : State} {k : Nat} (h : StreamAt s a k)
    (hn : ceilDiv (s.slot a).len 8 = k + n) :
    ∃ rs u, issueTimes .bcSnext n s = some (rs, u) ∧
      rs.map (fun r => r.rs.toNat) = (List.range' k n).map (streamByte (s.slot a).bits) ∧
      EndsWith .endOfStream u (exec .bcSnext u) := by
  unfold ceilDiv at hn
  induction n generalizing s k with
  | zero =>
    have hend : (s.slot a).len ≤ 8 * k := by omega
    exact ⟨[], s, rfl, rfl, execBcSnext_inactive (h.trans (if_pos hend))⟩
  | succ n ih =>
    have hmore : 8 * k < (s.slot a).len := by omega
    obtain ⟨t, hnext, hok, hslot, hat⟩ := bcSnext_streamAt h hmore
    obtain ⟨rs, u, hrun, hbytes, hlast⟩ := ih hat (by rw [hslot]; omega)
    have hbyte : (shortOf (streamByte (s.slot a).bits k)).toNat = streamByte (s.slot a).bits k :=
      shortOf_toNat (Nat.lt_trans (streamByte_lt _ k) (by decide))
    refine ⟨_, u, issueTimes_succ hnext hok hrun, ?_, hlast⟩
    rw [List.map_cons, hbyte, hbytes, hslot, List.range'_succ, List.map_cons]

/-- Settles O35: the stream begins before byte 0 and runs to the end. -/
theorem streamDeliversThePackedBytes : Obligations.StreamDeliversThePackedBytes := by
  intro s t a h
  obtain ⟨hslot, hat⟩ := bcSopen_streamAt h
  have hn : ceilDiv (t.slot a).len 8 = 0 + ceilDiv (s.slot a).len 8 := by rw [hslot, Nat.zero_add]
  obtain ⟨rs, u, hrun, hbytes, hlast⟩ := issueTimes_bcSnext _ hat hn
  refine ⟨rs, u, hrun, ?_, hlast⟩
  rw [hbytes, hslot, packBytes, List.range_eq_range', Container.len]

end Sys2Proof.Machine

/-! The priority queue commands (42_priority_queue.md): what each answers and leaves (R161 to R171), and the queue
drained by PQ.POP (R173, R175). -/

namespace Sys2Proof.Machine

/-! ### Priority as an order of keys -/

/-- One entry does not outrank another when their keys are in order: ascending keys in a min-heap, descending keys in a
max-heap (R36). -/
theorem entryHigher_eq_false {inv : Bool} {x y : Entry} :
    entryHigher inv x y = false ↔ if inv then y.key.toNat ≤ x.key.toNat else x.key.toNat ≤ y.key.toNat := by
  cases inv <;> simp [entryHigher]

/-- In heap order no entry of the queue outranks the root (R34). -/
theorem HeapOrdered.root_highest {α : Type} {higher : α → α → Bool} (wo : WeakOrder higher) {h : List α}
    (ho : HeapOrdered higher h) {r : α} (hr : h[0]? = some r) : ∀ x ∈ h, higher x r = false := by
  intro x hx
  obtain ⟨i, hi⟩ := List.mem_iff_getElem?.mp hx
  exact ho.root wo hr i x hi

/-! ### PQ.CFG and PQ.PUSH -/

/-- Settles O40: the one check of PQ.CFG is that of the queue's length. -/
theorem pqCfgOnlyWhenEmpty : Obligations.PqCfgOnlyWhenEmpty :=
  fun _ _ => ⟨rfl, rfl, fun hq => if_pos (mt List.eq_nil_of_length_eq_zero hq),
    fun hq => if_neg (not_not_intro (congrArg List.length hq))⟩

theorem execPqPush_ok {s : State} (key : Long) (val : Short) (hn : s.pqh.length ≠ s.par.pqCap) :
    execPqPush key val s = respondOk { s with pqh := heapPush (entryHigher s.pqInv) s.pqh ⟨key, val⟩ } :=
  if_neg hn

/-- Settles O41: CAPACITY_EXCEEDED, or the entry put into the heap. -/
theorem pqPushAddsTheEntry : Obligations.PqPushAddsTheEntry :=
  fun s key val => ⟨rfl, rfl, fun hn => if_pos hn, fun hn =>
    ⟨_, execPqPush_ok key val hn, rfl, rfl, rfl, heapPush_perm _ _ _, fun ho =>
      heapPush_ordered (entryHigher_weakOrder s.pqInv) ho _⟩⟩

/-! ### PQ.POP -/

theorem execPqPop_empty {s : State} (hq : s.pqh = []) : execPqPop s = raise s .empty := by
  simp only [execPqPop, hq, heapPop_nil]

/-- PQ.POP over a queue that is not empty answers the root, loses it and nothing else, and from heap order leaves heap
order and no entry that outranks it (R167, R175). -/
theorem execPqPop_ok {s : State} {r : Entry} (hr : s.pqh[0]? = some r) :
    ∃ h k, execPqPop s = respond { s with pqh := h, draws := k } 0 r.val r.key ∧ (r :: h).Perm s.pqh ∧
      (HeapOrdered (entryHigher s.pqInv) s.pqh →
        HeapOrdered (entryHigher s.pqInv) h ∧ ∀ x ∈ h, entryHigher s.pqInv x r = false) := by
  obtain ⟨l, hl⟩ := List.head?_eq_some_iff.mp (List.head?_eq_getElem?.trans hr)
  obtain ⟨h, k, hpop⟩ := heapPop_cons (entryHigher s.pqInv) s.par.pqTie Config.draw r l s.draws
  rw [← hl] at hpop
  obtain ⟨-, hperm, hord⟩ := heapPop_spec hpop
  exact ⟨h, k, by simp only [execPqPop, hpop], hperm, hord (entryHigher_weakOrder s.pqInv)⟩

/-- Settles O42: EMPTY, or the root answered and removed. -/
theorem pqPopRemovesTheHighest : Obligations.PqPopRemovesTheHighest := by
  refine fun s => ⟨rfl, rfl, execPqPop_empty, fun r hr => ?_⟩
  obtain ⟨h, k, hexec, hperm, hord⟩ := execPqPop_ok hr
  refine ⟨_, hexec, rfl, rfl, hperm, fun ho => ?_⟩
  obtain ⟨hkept, hlow⟩ := hord ho
  exact ⟨hkept, fun x hx => entryHigher_eq_false.mp (hlow x hx)⟩

/-! ### PQ.PEEK and PQ.LEN -/

theorem execPqPeek_empty {s : State} (hq : s.pqh = []) : execPqPeek s = raise s .empty := by
  simp only [execPqPeek, hq, List.getElem?_nil]

theorem execPqPeek_ok {s : State} {r : Entry} (hr : s.pqh[0]? = some r) :
    execPqPeek s = respond s 0 r.val r.key := by
  simp only [execPqPeek, hr]

/-- Two flags, in bits 0 and 1, and zero in the other six bits. -/
theorem flag0_or_flag1_getLsbD : ∀ (e f : Bool) (n : Nat), n < 8 →
    (flag0 e ||| if f then 2 else 0).getLsbD n = (decide (n = 0) && e || decide (n = 1) && f) := by decide

/-- The flags of PQ.LEN bit by bit (R94). -/
theorem pqLenFlags_getLsbD (q : List Entry) (inv : Bool) (n : Nat) (hn : n < 8) :
    (pqLenFlags q.length inv).getLsbD n = (decide (n = 0) && q.isEmpty || decide (n = 1) && inv) := by
  have hempty : q.isEmpty = (q.length == 0) := by cases q <;> rfl
  rw [hempty]
  exact flag0_or_flag1_getLsbD (q.length == 0) inv n hn

/-- Settles O43: the root looked up, and the length with its flags. -/
theorem pqPeekAndLen : Obligations.PqPeekAndLen := by
  refine fun s => ⟨rfl, rfl, execPqPeek_empty, fun r hr => ⟨execPqPeek_ok hr, fun ho x hx => ?_⟩, rfl, rfl,
    _, rfl, pqLenFlags_getLsbD s.pqh s.pqInv⟩
  exact entryHigher_eq_false.mp (ho.root_highest (entryHigher_weakOrder s.pqInv) hr x hx)

/-! ### The queue drained (R173) -/

/-- The entry a response to PQ.POP gives: key in `rv`, payload in `rs` (R167). -/
def Response.entry (r : Response) : Entry := ⟨r.rv, r.rs⟩

/-- As many PQ.POP as a queue in heap order has entries give every entry once, each outranked by none after it, and
leave the queue empty. -/
theorem issueTimes_pqPop (n : Nat) {s : State} (hn : s.pqh.length = n)
    (ho : HeapOrdered (entryHigher s.pqInv) s.pqh) :
    ∃ rs u, issueTimes .pqPop n s = some (rs, u) ∧ (rs.map Response.entry).Perm s.pqh ∧
      (rs.map Response.entry).Pairwise (fun x y => entryHigher s.pqInv y x = false) ∧ u.pqh = [] := by
  induction n generalizing s with
  | zero =>
    have hq : s.pqh = [] := List.eq_nil_of_length_eq_zero hn
    exact ⟨[], s, rfl, hq ▸ .nil, .nil, hq⟩
  | succ n ih =>
    have hr : s.pqh[0]? = some s.pqh[0] := List.getElem?_eq_getElem (by omega)
    obtain ⟨h, k, hexec, hperm, hord⟩ := execPqPop_ok hr
    obtain ⟨hkept, hlow⟩ := hord ho
    have hlen : h.length = n := Nat.succ.inj (hperm.length_eq.trans hn)
    obtain ⟨rs, u, hrun, hall, hsorted, hempty⟩ :=
      ih (s := { s with pqh := h, draws := k, rsp := some ⟨.ok, 0, s.pqh[0].val, s.pqh[0].key⟩ }) hlen hkept
    refine ⟨_, u, issueTimes_succ hexec rfl hrun, (hall.cons _).trans hperm, hsorted.cons fun x hx => ?_, hempty⟩
    exact hlow x (hall.subset hx)

/-- Settles O44: the run of pops, with priority read as the order of keys. -/
theorem drainIsInPriorityOrder : Obligations.DrainIsInPriorityOrder := by
  intro s ho
  obtain ⟨rs, u, hrun, hall, hsorted, hempty⟩ := issueTimes_pqPop _ rfl ho
  refine ⟨rs, u, hrun, hall, ?_, hempty, execPqPop_empty hempty⟩
  rw [List.pairwise_map] at hsorted ⊢
  exact hsorted.imp entryHigher_eq_false.mp

end Sys2Proof.Machine

/-! The codec commands (43_huffman_codec.md): the frequency table and the build (R191 to R199), the reads of the tree
(R211, R213), encode and decode (R215 to R231). -/

namespace Sys2Proof.Machine

/-! ### The frequency table -/

theorem execHcFget_present {s : State} {x : Sym} {w : Long} (h : Table.get? s.ft x = some w) :
    execHcFget x s = respond s 1 0 w := by
  simp only [execHcFget, h, flag0, if_true]

theorem execHcFget_absent {s : State} {x : Sym} (h : Table.get? s.ft x = none) :
    execHcFget x s = respond s 0 0 0 := by
  simp only [execHcFget, h, flag0, Bool.false_eq_true, if_false]

/-- Settles O45: the laws of the table, and the two answers of HC.FGET. -/
theorem frequencyTableCommands : Obligations.FrequencyTableCommands := by
  refine fun s w x => ⟨rfl, rfl, ⟨_, rfl, rfl, rfl, Table.get?_nil⟩, rfl, rfl,
    ⟨_, rfl, rfl, rfl, Table.get?_put_same _ _ _, fun y hy => Table.get?_put_ne _ _ hy⟩, rfl, rfl, ?_⟩
  cases h : Table.get? s.ft x with
  | some v => exact execHcFget_present h
  | none => exact execHcFget_absent h

/-! ### The build -/

theorem execHcBuild_empty {s : State} (h : s.ft = []) :
    execHcBuild s = respond { s with nodes := [], cwt := [] } 0 0 0 :=
  if_pos (congrArg List.length h)

theorem execHcBuild_built {s : State} {c : Built} (hne : s.ft ≠ [])
    (hb : buildCodec s.par Config.draw s.ft s.draws = some c) :
    execHcBuild s =
      respond { s with nodes := c.nodes, cwt := c.cwt, draws := c.k } 1 (shortOf c.root) (longOf s.ft.length) := by
  have hlen : ¬ s.ft.length = 0 := mt List.eq_nil_of_length_eq_zero hne
  simp only [execHcBuild, hlen, hb, flag0, if_true, if_false]

/-- Settles O46: the empty table apart, it is what a build can do. -/
theorem buildMakesACodecOfThePresentSymbols : Obligations.BuildMakesACodecOfThePresentSymbols := by
  refine fun s hft => ⟨rfl, rfl, ?_⟩
  by_cases hne : s.ft = []
  · exact ⟨_, execHcBuild_empty hne, rfl, fun x => by rw [hne]; rfl, fun _ => ⟨rfl, rfl, rfl⟩, fun h => absurd hne h⟩
  · obtain ⟨c, hb, hroot, hbuilt, hpresent⟩ := buildCodec_spec s.par Config.draw hft hne s.draws
    rw [← hroot]
    exact ⟨_, execHcBuild_built hne hb, rfl, hpresent, fun h => absurd h hne, fun _ => ⟨rfl, hbuilt⟩⟩

/-- Settles O47: what one pass of the merge loop can do, from heap order. -/
theorem mergeTakesTheTwoLowestWeights : Obligations.MergeTakesTheTwoLowestWeights := by
  intro p d f h2 ho
  obtain ⟨f', x, y, rest, l, r, hf', m, hleft, hright⟩ := mergeOnce_spec p d f h2
  obtain ⟨ho', hxy, hy⟩ := m.lowest ho
  exact ⟨f', x, y, rest, l, r, hf', m.popped, List.forall_mem_cons.2 ⟨hxy, fun z hz => hxy.trans (hy z hz)⟩, hy, m.heap,
    ho', m.nodes, m.sides, hleft, hright⟩

/-- Settles O48: each merge keeps the sum of the pending weights, and one entry is left. -/
theorem rootWeightIsTheTotal : Obligations.RootWeightIsTheTotal := by
  intro p d ft k hne
  obtain ⟨ok, hlen⟩ := buildForest_ok p d hne k
  obtain ⟨e, he⟩ := List.length_eq_one_iff.1 hlen
  exact ⟨e, he, by simpa [he] using ok.total⟩

/-! ### The size of a built codec -/

/-- A canonical table lists no symbol twice. -/
theorem Table.nodup_of_wf {β : Type} {t : Table β} (h : Table.wf t) : (t.map Prod.fst).Nodup := by
  rw [List.nodup_iff_pairwise_ne, List.pairwise_map]
  exact h.imp fun hlt he => absurd (congrArg BitVec.toNat he) (Nat.ne_of_lt hlt)

section
variable {nsym m : Nat} {nodes : List Node} {cwt : Table (List Bool)} (c : CodecBuilt nsym m nodes cwt)
include c

/-- The leaves of a built arena are its first `m` nodes. -/
theorem CodecBuilt.lt_of_leaf {h : Nat} {s : Sym} (hs : nodes[h]? = some (.leaf s)) : h < m := by
  by_contra hge
  have hl := (List.getElem?_eq_some_iff.1 hs).1
  have hsize := c.size
  obtain ⟨l, r, hn, -⟩ := c.internals h (by omega) (by omega)
  cases hs.symm.trans hn

/-- Two leaves with one symbol are one leaf. -/
theorem CodecBuilt.leaf_unique {g h : Nat} {s : Sym} (hg : nodes[g]? = some (.leaf s))
    (hh : nodes[h]? = some (.leaf s)) : g = h := by
  by_contra hne
  obtain hlt | hlt := Nat.lt_or_gt_of_ne hne
  · exact Nat.lt_irrefl _ (c.ascending g h s s hlt hg hh)
  · exact Nat.lt_irrefl _ (c.ascending h g s s hlt hh hg)

/-- There are as many codewords as leaves. -/
theorem CodecBuilt.cwt_length : cwt.length = m := by
  have hmem (s : Sym) : s ∈ cwt.map Prod.fst ↔ ∃ h : Nat, nodes[h]? = some (Node.leaf s) :=
    Table.get?_isSome_iff.symm.trans (c.present s)
  choose f hf using c.leaves
  have hcard : (Finset.range m).card = (cwt.map Prod.fst).toFinset.card := by
    refine Finset.card_bij (fun h hh => f h (Finset.mem_range.1 hh)) (fun h hh => ?_) (fun g hg h hh e => ?_)
      fun s hs => ?_
    · exact List.mem_toFinset.2 ((hmem _).2 ⟨h, (hf h _).1⟩)
    · exact c.leaf_unique (hf g _).1 (e ▸ (hf h _).1)
    · obtain ⟨h, hs⟩ := (hmem s).1 (List.mem_toFinset.1 hs)
      have hlt := c.lt_of_leaf hs
      exact ⟨h, Finset.mem_range.2 hlt, by simpa using (hf h hlt).1.symm.trans hs⟩
  rw [List.toFinset_card_of_nodup (Table.nodup_of_wf c.canonical)] at hcard
  simpa using hcard.symm

/-- A path to a leaf passes an internal node with each bit, and their handles fall (R39). -/
theorem CodecBuilt.follow_length {h : Nat} {q : List Bool} {s : Sym} (hq : follow nodes h q = some (.leaf s)) :
    q.length ≤ h + 1 - m := by
  induction q generalizing h with
  | nil => exact Nat.zero_le _
  | cons b bs ih =>
    simp only [follow] at hq
    split at hq
    · next l r hn =>
      have hlen := (List.getElem?_eq_some_iff.1 hn).1
      obtain ⟨x, hx, -⟩ | ⟨l', r', hn', hl, hr⟩ := c.node hlen
      · cases hn.symm.trans hx
      · cases hn.symm.trans hn'
        have hm : m ≤ h := by
          by_contra hlt
          obtain ⟨x, hx, -⟩ := c.leaves h (Nat.lt_of_not_le hlt)
          cases hn.symm.trans hx
        have hb : (if b then r else l) < h := by split <;> assumption
        have := ih hq
        rw [List.length_cons]
        omega
    · cases hq
    · cases hq

/-- With two symbols or more the root is no leaf, so no codeword is empty. -/
theorem CodecBuilt.codeword_pos (h2 : 2 ≤ m) {x : Sym} {cw : List Bool} (hcw : Table.get? cwt x = some cw) :
    1 ≤ cw.length := by
  have hroot := (c.codeword x cw).1 hcw
  cases cw with
  | nil =>
    have := c.lt_of_leaf hroot
    omega
  | cons b bs => exact Nat.succ_pos _

end

/-- Settles O50: the codewords counted by the leaves, and measured by the paths from the root. -/
theorem codewordLengthsAreBounded : Obligations.CodewordLengthsAreBounded := by
  intro s h hne
  obtain ⟨he, -⟩ | ⟨m, c⟩ := h.codec
  · exact absurd he hne
  · refine ⟨m, c.size, c.cwt_length, fun x cw hcw => ⟨?_, fun h2 => c.codeword_pos h2 hcw⟩⟩
    have := c.follow_length ((c.codeword x cw).1 hcw)
    have := c.some_symbol
    omega

/-! ### The reads of the tree -/

theorem execHcStat_tree {s : State} (h : s.nodes ≠ []) :
    execHcStat s = respond s 1 (shortOf (s.nodes.length - 1)) (longOf s.nodes.length) :=
  if_neg (mt List.eq_nil_of_length_eq_zero h)

theorem execHcNode_outOfRange {s : State} {h : Long} (hn : s.nodes.length ≤ h.toNat) :
    execHcNode h s = raise s .outOfRange := by
  simp only [execHcNode, List.getElem?_eq_none hn]

theorem execHcNode_leaf {s : State} {h : Long} {x : Sym} (hn : s.nodes[h.toNat]? = some (.leaf x)) :
    execHcNode h s = respond s 0 x 0 := by
  simp only [execHcNode, hn, flag0, Bool.false_eq_true, if_false]

theorem execHcNode_internal {s : State} {h : Long} {l r : Nat} (hn : s.nodes[h.toNat]? = some (.internal l r)) :
    execHcNode h s = respond s 1 0 (longOfChildren l r) := by
  simp only [execHcNode, hn, flag0, if_true]

/-- The two child handles of HC.NODE's result as a number (R213). -/
theorem longOfChildren_eq {l r : Nat} (hl : l < 2 ^ 16) (hr : r < 2 ^ 16) :
    longOfChildren l r = BitVec.ofNat 32 (l + 2 ^ 16 * r) := by
  apply BitVec.eq_of_toNat_eq
  have hor := Nat.two_pow_add_eq_or_of_lt hl r
  rw [longOfChildren, BitVec.toNat_append, BitVec.toNat_ofNat, BitVec.toNat_ofNat, BitVec.toNat_ofNat,
    Nat.mod_eq_of_lt hl, Nat.mod_eq_of_lt hr, Nat.mod_eq_of_lt (by omega), Nat.shiftLeft_eq, Nat.mul_comm r, ← hor,
    Nat.add_comm]

/-- Settles O51: the answer of each command with and without a tree, at each kind of node. -/
theorem hcStatAndNode : Obligations.HcStatAndNode := by
  refine fun s => ⟨rfl, rfl, fun h => if_pos (congrArg List.length h), execHcStat_tree, fun h => ⟨rfl, rfl,
    execHcNode_outOfRange, fun x hn => execHcNode_leaf hn, fun l r hn hl hr => ?_⟩⟩
  rw [← longOfChildren_eq hl hr]
  exact execHcNode_internal hn

/-! ### HC.CWGET and HC.ENCODE -/

theorem execHcCwget_unknown {s : State} {a : SlotNo} {x : Sym} (hl : s.locked a = false)
    (hx : Table.get? s.cwt x = none) : execHcCwget a x s = raise s .unknownSymbol := by
  simp only [execHcCwget, lockCheck_passed hl, hx]

theorem execHcCwget_known {s : State} {a : SlotNo} {x : Sym} {cw : List Bool} (hl : s.locked a = false)
    (hx : Table.get? s.cwt x = some cw) : execHcCwget a x s = storeInto a cw s := by
  simp only [execHcCwget, lockCheck_passed hl, hx]

theorem execHcEncode_unknown {s : State} {a : SlotNo} (hl : s.locked a = false) (he : encodeSyms s.cwt s.sb = none) :
    execHcEncode a s = raise s .unknownSymbol := by
  simp only [execHcEncode, lockCheck_passed hl, he]

theorem execHcEncode_known {s : State} {a : SlotNo} {out : List Bool} (hl : s.locked a = false)
    (he : encodeSyms s.cwt s.sb = some out) : execHcEncode a s = storeInto a out s := by
  simp only [execHcEncode, lockCheck_passed hl, he]

/-- A command that comes to storing bits that fit: the slot's bits and words each on its own (R215, R220). -/
theorem stores_bits_nw {x : Answer} {s : State} {a : SlotNo} {bs : List Bool} (hx : x = storeInto a bs s)
    (ha : s.hasSlot a) (hc : bs.length ≤ s.par.bcMaxBits) :
    ∃ t, x = .next t ∧ t.answeredOk 0 0 (BitVec.ofNat 32 bs.length) ∧ OnlySlotChanged a s t ∧ (t.slot a).bits = bs ∧
      (t.slot a).nw = max (s.slot a).nw (ceilDiv bs.length s.par.w) :=
  writes_bits_nw (hx.trans (if_neg (Nat.not_lt_of_le hc))) ha

/-- Settles O52: BUSY, UNKNOWN_SYMBOL, or the ends of `storeInto` with the codeword. -/
theorem hcCwgetCopiesTheCodeword : Obligations.HcCwgetCopiesTheCodeword :=
  fun _ a _ => ⟨rfl, rfl, exec_of_locked rfl, execHcCwget_unknown, fun _ hl hx =>
    ⟨fun hc => (execHcCwget_known hl hx).trans (storeInto_capacity a hc), stores_bits_nw (execHcCwget_known hl hx)⟩⟩

/-- A buffer with a symbol that has no codeword has no encoding (R220). -/
theorem encodeSyms_eq_none {cwt : Table (List Bool)} {syms : List Sym} {x : Sym} (hx : x ∈ syms)
    (hn : Table.get? cwt x = none) : encodeSyms cwt syms = none := by
  by_contra hsome
  have := encodeSyms_isSome.1 (Option.isSome_iff_ne_none.2 hsome) x hx
  simp [hn] at this

/-- Settles O53: BUSY, UNKNOWN_SYMBOL, or the ends of `storeInto` with the codewords laid end to end. -/
theorem hcEncodeConcatenatesTheCodewords : Obligations.HcEncodeConcatenatesTheCodewords := by
  refine fun s a => ⟨rfl, rfl, exec_of_locked rfl, fun hl ⟨x, hx, hn⟩ => ?_, fun cws hl hcws => ?_⟩
  · exact execHcEncode_unknown hl (encodeSyms_eq_none hx hn)
  · have hx := execHcEncode_known hl (encodeSyms_of_map hcws)
    exact ⟨fun hc => hx.trans (storeInto_capacity a hc), stores_bits_nw hx⟩

/-! ### HC.DECODE -/

theorem execHcDecode_zero {s : State} (b : SlotNo) {n : Long} (hn : n = 0) :
    execHcDecode b n s = respond { s with sb := [] } 0 0 0 :=
  if_pos (congrArg BitVec.toNat hn)

section
variable {s : State} {b : SlotNo} {n : Long}

theorem execHcDecode_emptyTree (hn : n.toNat ≠ 0) (hnodes : s.nodes = []) :
    execHcDecode b n s = raise s .emptyTree := by
  simp [execHcDecode, hn, hnodes]

theorem execHcDecode_capacity (hn : n.toNat ≠ 0) (hnodes : s.nodes ≠ []) (hc : s.par.sbCap < n.toNat) :
    execHcDecode b n s = raise s .capacityExceeded := by
  simp [execHcDecode, hn, hnodes, hc]

theorem execHcDecode_truncated (hn : n.toNat ≠ 0) (hnodes : s.nodes ≠ []) (hc : n.toNat ≤ s.par.sbCap)
    (hd : decodeSyms s.nodes (s.nodes.length - 1) n.toNat (s.slot b).bits = .truncated) :
    execHcDecode b n s = raise s .truncatedInput := by
  simp [execHcDecode, hn, hnodes, Nat.not_lt_of_le hc, hd]

/-- The symbols found in the bits `used` at the front of the slot, no bit for no symbol. -/
theorem execHcDecode_symbols {out : List Sym} {used rest : List Bool} (hnodes : s.nodes ≠ [])
    (hc : n.toNat ≤ s.par.sbCap) (hbits : (s.slot b).bits = used ++ rest)
    (hd : decodeSyms s.nodes (s.nodes.length - 1) n.toNat (used ++ rest) = .symbols out rest) :
    execHcDecode b n s = respond { s with sb := out } 0 0 (longOf used.length) := by
  by_cases hn : n.toNat = 0
  · rw [hn] at hd
    obtain ⟨rfl, rfl⟩ : [] = out ∧ used = [] := by simpa [decodeSyms] using hd
    exact if_pos hn
  · simp [execHcDecode, hn, hnodes, Nat.not_lt_of_le hc, hbits, hd, Container.len]

end

/-- Bits that hold no codeword more after the first symbols are too few for more symbols. -/
theorem decodeSyms_truncated {nodes : List Node} {root : Nat} {rest : List Bool}
    (hrest : walk nodes rest root = .truncated) (m k : Nat) {bits : List Bool} {out : List Sym}
    (hd : decodeSyms nodes root m bits = .symbols out rest) :
    decodeSyms nodes root (m + (k + 1)) bits = .truncated := by
  induction m generalizing bits out with
  | zero =>
    cases hd
    rw [Nat.zero_add]
    simp only [decodeSyms, hrest]
  | succ m ih =>
    rw [Nat.add_right_comm, decodeSyms]
    rw [decodeSyms] at hd
    split at hd
    · cases hd
    · next s bits' hw =>
      split at hd
      · next out' rest' hd' =>
        cases hd
        simp only [ih hd']
      · cases hd

/-- Settles O54: the outcomes in the order of the checks, the last two by the walks of a built codec. -/
theorem hcDecodeReadsTheCodewords : Obligations.HcDecodeReadsTheCodewords := by
  intro s b n hcodec
  have toNat_ne (hn : n ≠ 0) : n.toNat ≠ 0 := BitVec.toNat_ne_iff_ne.2 hn
  refine ⟨rfl, rfl, execHcDecode_zero b, fun hn => execHcDecode_emptyTree (toNat_ne hn),
    fun hn => execHcDecode_capacity (toNat_ne hn), fun syms cws rest hnodes hcap hn hcws hbits => ?_⟩
  obtain ⟨he, -⟩ | ⟨m, c⟩ := hcodec
  · exact absurd he hnodes
  · have hd := c.decode_encode syms (encodeSyms_of_map hcws) rest
    refine ⟨fun hlen => ?_, fun x tail hlt hx htail => ?_⟩
    · rw [hlen] at hd
      exact ⟨_, execHcDecode_symbols hnodes hcap hbits hd, rfl, rfl, rfl⟩
    · have hw : walk s.nodes rest (s.nodes.length - 1) = .truncated :=
        walk_truncated_of_follow (c.root_eq ▸ (c.codeword x _).1 hx) htail
      obtain ⟨k, hk⟩ := Nat.exists_eq_add_of_lt hlt
      refine execHcDecode_truncated (toNat_ne hn) hnodes hcap ?_
      rw [hbits, hk]
      exact decodeSyms_truncated hw _ k hd

/-- Settles O55: the slot holds the codewords of the buffer end to end, and the codec is as it was. -/
theorem encodeThenDecodeIsTheIdentity : Obligations.EncodeThenDecodeIsTheIdentity := by
  intro s a n out h ha hnodes hl _ he hout hn
  obtain ⟨he', -⟩ | ⟨m, c⟩ := h.codec
  · exact absurd he' hnodes
  · obtain ⟨t, ht, hok, hframe, hbits, -⟩ := stores_bits_nw (execHcEncode_known hl he) ha hout
    have hnodes' : t.nodes = s.nodes := by rw [hframe.rest]
    have hpar : t.par = s.par := by rw [hframe.rest]
    have hd := c.decode_encode s.sb he []
    have hu : execHcDecode a n t = respond { t with sb := s.sb } 0 0 (longOf out.length) := by
      refine execHcDecode_symbols (rest := []) (hnodes' ▸ hnodes) ?_ (by rw [hbits, List.append_nil]) ?_
      · rw [hn, hpar]
        exact h.buffer_cap
      · rw [hn, hnodes']
        exact hd
    exact ⟨t, _, ht, hu, rfl, hok, hok.symm⟩

/-! ### One symbol, and none (R200, R231) -/

/-- A table of one symbol: no merge, one leaf, its path empty. -/
theorem buildCodec_single (p : Params) (d : Nat → Bool) (x : Sym) (w : Long) (k : Nat) :
    buildCodec p d [(x, w)] k = some ⟨[.leaf x], [(x, [])], 0, k⟩ := rfl

/-- Over a tree of one leaf any number of copies of its symbol are decoded, with no bit used. -/
theorem decodeSyms_single (x : Sym) (n : Nat) (bits : List Bool) :
    decodeSyms [.leaf x] 0 n bits = .symbols (List.replicate n x) bits := by
  induction n with
  | zero => rfl
  | succ n ih =>
    have hw : walk [.leaf x] bits 0 = .leaf x bits := walk_of_follow (cw := []) rfl
    simp only [decodeSyms, hw, ih, List.replicate_succ]

/-- Settles O56: the build, the encoding and the decoding for one symbol, then for an empty buffer and for no symbol. -/
theorem singleSymbolAndEmptyCorpus : Obligations.SingleSymbolAndEmptyCorpus := by
  refine ⟨fun s x w hft => ?_, fun s a => ⟨fun ha hl hsb => ?_, _, execHcDecode_zero a rfl, rfl, rfl, rfl⟩⟩
  · have hb : buildCodec s.par Config.draw s.ft s.draws = some ⟨[.leaf x], [(x, [])], 0, s.draws⟩ := by
      rw [hft]
      exact buildCodec_single _ _ x w _
    have hx : Table.get? [(x, ([] : List Bool))] x = some [] := if_pos rfl
    refine ⟨_, execHcBuild_built (by simp [hft]) hb, by rw [hft]; rfl, rfl, hx, fun y hy => if_neg hy.symm,
      fun n => ?_, fun u b n hu hn => ?_⟩
    · have hcws : (List.replicate n x).map (Table.get? [(x, ([] : List Bool))]) = (List.replicate n []).map some := by
        rw [List.map_replicate, List.map_replicate, hx]
      rw [encodeSyms_of_map hcws, List.flatten_replicate_nil]
    · have hd := decodeSyms_single x n.toNat (u.slot b).bits
      have hv : execHcDecode b n u = respond { u with sb := List.replicate n.toNat x } 0 0 0 :=
        execHcDecode_symbols (used := []) (by simp [hu]) hn rfl (hu ▸ hd)
      exact ⟨_, hv, rfl, rfl, rfl⟩
  · have he : encodeSyms s.cwt s.sb = some [] := by rw [hsb]; rfl
    obtain ⟨t, ht, hok, hframe, hbits, -⟩ := stores_bits_nw (execHcEncode_known hl he) ha (Nat.zero_le _)
    exact ⟨t, ht, hok, hframe, hbits⟩

end Sys2Proof.Machine

/-! The code of HC.BUILD is of minimum redundancy (43_huffman_codec.md R208 (f)): the lengths a code can have, the least
number of bits for given weights, and the merge loop as the sum it builds up. -/

namespace Sys2Proof.Machine

/-! ### The lengths of a code in which no word begins another -/

/-- Lengths of at most `n` whose words, taken as the beginnings of words of `n` bits, are not too many (Kraft). -/
structure Kraft (n : Nat) (ls : List Nat) : Prop where
  le : ∀ l ∈ ls, l ≤ n
  sum_le : (ls.map fun l => 2 ^ (n - l)).sum ≤ 2 ^ n

theorem Kraft.perm {n : Nat} {ls ks : List Nat} (h : Kraft n ls) (hp : ls.Perm ks) : Kraft n ks :=
  ⟨fun l hl => h.le l (hp.symm.subset hl), (hp.map fun l => 2 ^ (n - l)).sum_eq ▸ h.sum_le⟩

/-- Cutting the longest lengths by one leaves twice the room for every other length. -/
theorem sum_map_min_truncated {n : Nat} {ls : List Nat} (h : ∀ l ∈ ls, l ≤ n + 1) :
    2 * ((ls.map (min n)).map fun l => 2 ^ (n - l)).sum = (ls.map fun l => 2 ^ (n + 1 - l)).sum + ls.count (n + 1) := by
  induction ls with
  | nil => rfl
  | cons l ls ih =>
    obtain ⟨hl, hls⟩ := List.forall_mem_cons.1 h
    have ih := ih hls
    simp only [List.map_cons, List.sum_cons, List.count_cons]
    obtain rfl | hlt := Nat.eq_or_lt_of_le hl
    · rw [Nat.min_eq_left (Nat.le_succ n), if_pos (beq_self_eq_true _), Nat.sub_self, Nat.sub_self]
      omega
    · have hpow : 2 ^ (n + 1 - l) = 2 * 2 ^ (n - l) := by
        rw [Nat.sub_add_comm (Nat.le_of_lt_succ hlt), Nat.pow_succ, Nat.mul_comm]
      rw [Nat.min_eq_right (Nat.le_of_lt_succ hlt), if_neg (by simp; omega), hpow]
      omega

/-- A longest length that occurs once can be cut by one. -/
theorem Kraft.truncate {n : Nat} {ls : List Nat} (h : Kraft (n + 1) ls) (hc : ls.count (n + 1) ≤ 1) :
    Kraft n (ls.map (min n)) := by
  refine ⟨List.forall_mem_map.2 fun _ _ => Nat.min_le_left _ _, ?_⟩
  have hsum := sum_map_min_truncated h.le
  have hle := h.sum_le
  rw [Nat.pow_succ] at hle
  omega

/-- Two words of the longest length leave room for the word that both go on from. -/
theorem Kraft.merge {n : Nat} {ls : List Nat} (h : Kraft (n + 1) ((n + 1) :: (n + 1) :: ls)) :
    Kraft (n + 1) (n :: ls) := by
  obtain ⟨hle, hsum⟩ := h
  simp only [List.forall_mem_cons] at hle
  obtain ⟨-, -, hls⟩ := hle
  refine ⟨List.forall_mem_cons.2 ⟨Nat.le_succ n, hls⟩, ?_⟩
  simp only [List.map_cons, List.sum_cons, Nat.sub_self, Nat.add_sub_cancel_left] at hsum ⊢
  omega

/-- A code in which no word begins another, without the empty word, can be read in one way only. -/
theorem uniquelyDecodable_of_prefixFree {S : Set (List Bool)} (hnil : [] ∉ S)
    (hpf : ∀ a ∈ S, ∀ b ∈ S, a <+: b → a = b) : InformationTheory.UniquelyDecodable S := by
  intro L M hL hM heq
  induction L generalizing M with
  | nil =>
    cases M with
    | nil => rfl
    | cons b M =>
      obtain ⟨rfl, -⟩ := List.append_eq_nil_iff.1 heq.symm
      exact absurd (hM [] (List.mem_cons_self ..)) hnil
  | cons a L ih =>
    cases M with
    | nil =>
      obtain ⟨rfl, -⟩ := List.append_eq_nil_iff.1 heq
      exact absurd (hL [] (List.mem_cons_self ..)) hnil
    | cons b M =>
      obtain ⟨ha, hL'⟩ := List.forall_mem_cons.1 hL
      obtain ⟨hb, hM'⟩ := List.forall_mem_cons.1 hM
      rw [List.flatten_cons, List.flatten_cons] at heq
      have hab : a = b := by
        obtain h | h := List.prefix_or_prefix_of_prefix (List.prefix_append a L.flatten)
          (heq ▸ List.prefix_append b M.flatten)
        · exact hpf a ha b hb h
        · exact (hpf b hb a ha h).symm
      subst hab
      rw [ih M hL' hM' (List.append_cancel_left heq)]

/-- The lengths of a code in which no word begins another meet Kraft's inequality: by the library's theorem, but for the
empty word, which has to be the only one. -/
theorem exists_kraft_of_prefixFree {words : List (List Bool)} (hnd : words.Nodup)
    (hpf : ∀ a ∈ words, ∀ b ∈ words, a <+: b → a = b) : ∃ n, Kraft n (words.map List.length) := by
  by_cases hnil : [] ∈ words
  · have hall : words = List.replicate words.length [] :=
      List.eq_replicate_of_mem fun b hb => (hpf [] hnil b hb List.nil_prefix).symm
    have hone : words.length ≤ 1 := List.nodup_replicate.1 (hall ▸ hnd)
    refine ⟨0, ?_⟩
    rw [hall]
    exact ⟨by simp, by simpa using hone⟩
  · have hk := InformationTheory.kraft_mcmillan_inequality (S := words.toFinset)
      (uniquelyDecodable_of_prefixFree (by simpa using hnil) (by simpa using hpf))
    rw [List.sum_toFinset _ hnd, Fintype.card_bool] at hk
    have hle : ∀ w ∈ words, w.length ≤ (words.map List.length).sum := fun w hw =>
      List.le_sum_of_mem (List.mem_map_of_mem hw)
    generalize (words.map List.length).sum = n at hle
    refine ⟨n, List.forall_mem_map.2 hle, ?_⟩
    have hscale : ((words.map fun w => 2 ^ (n - w.length)).sum : Nat) =
        (2 : ℝ) ^ n * (words.map fun w => (1 / ((2 : Nat) : ℝ)) ^ w.length).sum := by
      rw [Nat.cast_list_sum, List.map_map, ← List.sum_map_mul_left]
      refine congrArg List.sum (List.map_congr_left fun w hw => ?_)
      simp [pow_sub₀ (2 : ℝ) two_ne_zero (hle w hw)]
    have hreal := mul_le_of_le_one_right (by positivity : (0 : ℝ) ≤ 2 ^ n) hk
    rw [← hscale] at hreal
    rw [List.map_map]
    exact_mod_cast hreal

/-! ### The least number of bits -/

/-- The bits of words of the given lengths, each word taken as many times as its weight says. -/
def totalBits (es : List (Nat × Nat)) : Nat := (es.map fun e => e.1 * e.2).sum

@[simp] theorem totalBits_cons (w l : Nat) (es : List (Nat × Nat)) :
    totalBits ((w, l) :: es) = w * l + totalBits es := rfl

theorem totalBits_perm {es fs : List (Nat × Nat)} (h : es.Perm fs) : totalBits es = totalBits fs :=
  (h.map _).sum_eq

/-- Words of lengths that a code can have take no fewer than `c` bits in all, for symbols of the given weights. -/
def LeastBits (ws : List Nat) (c : Nat) : Prop :=
  ∀ (n : Nat) (es : List (Nat × Nat)), (es.map Prod.fst).Perm ws → Kraft n (es.map Prod.snd) → c ≤ totalBits es

theorem LeastBits.perm {ws vs : List Nat} {c : Nat} (h : LeastBits ws c) (hp : ws.Perm vs) : LeastBits vs c :=
  fun n es hes hk => h n es (hes.trans hp.symm) hk

/-- The word of the least weight can trade its length for the greatest one. -/
theorem exists_longest_lightest {x m : Nat} {ws : List Nat} {es : List (Nat × Nat)} (hx : ∀ z ∈ ws, x ≤ z)
    (hes : (es.map Prod.fst).Perm (x :: ws)) (hle : ∀ l ∈ es.map Prod.snd, l ≤ m) (hm : m ∈ es.map Prod.snd) :
    ∃ fs, (fs.map Prod.fst).Perm ws ∧ (m :: fs.map Prod.snd).Perm (es.map Prod.snd) ∧
      totalBits ((x, m) :: fs) ≤ totalBits es := by
  obtain ⟨⟨x, a⟩, fs, hperm, rfl, hfs⟩ := perm_map_cons hes
  have hsnd : (es.map Prod.snd).Perm (a :: fs.map Prod.snd) := hperm.map Prod.snd
  rw [totalBits_perm hperm]
  obtain rfl | hm := List.mem_cons.1 (hsnd.subset hm)
  · exact ⟨fs, hfs, hsnd.symm, Nat.le_refl _⟩
  · obtain ⟨⟨z, m⟩, hz, rfl⟩ := List.mem_map.1 hm
    obtain ⟨gs, hgs⟩ : ∃ gs, fs.Perm ((z, m) :: gs) := ⟨_, List.perm_cons_erase hz⟩
    refine ⟨(z, a) :: gs, (hgs.map Prod.fst).symm.trans hfs, ?_, ?_⟩
    · exact (List.Perm.swap _ _ _).trans (((hgs.map Prod.snd).symm.cons a).trans hsnd.symm)
    · have hxz : x ≤ z := hx z (hfs.subset (List.mem_map_of_mem hz))
      have ham : a ≤ m := hle a (hsnd.symm.subset (List.mem_cons_self ..))
      have hswap : x * m + z * a ≤ x * a + z * m := mul_add_mul_le_mul_add_mul hxz ham
      simp only [totalBits_cons, totalBits_perm hgs]
      omega

/-- Some code with no more bits gives the two least weights words of one length, the greatest there is. -/
theorem exists_longest_pair {x y n : Nat} {ws : List Nat} {es : List (Nat × Nat)} (hxy : x ≤ y) (hy : ∀ z ∈ ws, y ≤ z)
    (hes : (es.map Prod.fst).Perm (x :: y :: ws)) (hk : Kraft n (es.map Prod.snd)) :
    ∃ m fs, (fs.map Prod.fst).Perm ws ∧ Kraft (m + 1) ((m + 1) :: (m + 1) :: fs.map Prod.snd) ∧
      totalBits ((x, m + 1) :: (y, m + 1) :: fs) ≤ totalBits es := by
  induction n generalizing es with
  | zero =>
    have hlen : es.length = ws.length + 2 := by simpa using hes.length_eq
    have hle : es.length ≤ 1 := by simpa [Function.comp_def] using hk.sum_le
    omega
  | succ n ih =>
    by_cases hc : (es.map Prod.snd).count (n + 1) ≤ 1
    · have hcut := hk.truncate hc
      rw [List.map_map] at hcut
      obtain ⟨m, fs, hfs, hkraft, hbits⟩ := ih (es := es.map fun e => (e.1, min n e.2))
        (by rw [List.map_map]; exact hes) (by rw [List.map_map]; exact hcut)
      refine ⟨m, fs, hfs, hkraft, hbits.trans ?_⟩
      rw [totalBits, List.map_map]
      exact List.sum_le_sum fun e _ => Nat.mul_le_mul_left _ (Nat.min_le_right _ _)
    · have hx : ∀ z ∈ y :: ws, x ≤ z := List.forall_mem_cons.2 ⟨hxy, fun z hz => hxy.trans (hy z hz)⟩
      obtain ⟨fs, hfs, hfsnd, hfbits⟩ :=
        exists_longest_lightest hx hes hk.le (List.count_pos_iff.1 (Nat.zero_lt_of_lt (Nat.lt_of_not_le hc)))
      have hfcount := hfsnd.count_eq (n + 1)
      rw [List.count_cons_self] at hfcount
      have hfle := (hk.perm hfsnd.symm).le
      obtain ⟨gs, hgs, hgsnd, hgbits⟩ := exists_longest_lightest hy hfs (List.forall_mem_cons.1 hfle).2
        (List.count_pos_iff.1 (by omega))
      refine ⟨n, gs, hgs, hk.perm ((hgsnd.cons (n + 1)).trans hfsnd).symm, ?_⟩
      rw [totalBits_cons] at hfbits ⊢
      omega

theorem leastBits_zero (ws : List Nat) : LeastBits ws 0 := fun _ _ _ _ => Nat.zero_le _

/-- The step of the greedy build: the two least weights share all but the last bit of their words. -/
theorem LeastBits.merge {x y c : Nat} {ws : List Nat} (hxy : x ≤ y) (hy : ∀ z ∈ ws, y ≤ z)
    (h : LeastBits ((x + y) :: ws) c) : LeastBits (x :: y :: ws) (c + (x + y)) := by
  intro n es hes hk
  obtain ⟨m, fs, hfs, hkraft, hbits⟩ := exists_longest_pair hxy hy hes hk
  have hc := h (m + 1) ((x + y, m) :: fs) (hfs.cons _) hkraft.merge
  simp only [totalBits_cons] at hc hbits
  have hxm : x * (m + 1) = x * m + x := Nat.mul_succ x m
  have hym : y * (m + 1) = y * m + y := Nat.mul_succ y m
  have hsum : (x + y) * m = x * m + y * m := Nat.add_mul x y m
  omega

/-! ### The bits of a tree -/

/-- The weight of a tree: the sum of those of its leaves. -/
def Tree.weight (wt : Sym → Nat) : Tree → Nat
  | .leaf s => wt s
  | .node l r => l.weight wt + r.weight wt

/-- The bits of the paths to the leaves of a tree, weighed: each node but a leaf adds one bit to every leaf below it. -/
def Tree.bits (wt : Sym → Nat) : Tree → Nat
  | .leaf _ => 0
  | .node l r => l.bits wt + r.bits wt + (l.weight wt + r.weight wt)

/-- The sum over the leaves, for a tree whose root is reached by a path of `k` bits. -/
theorem Tree.sum_leaves (wt len : Sym → Nat) {T : Tree} {k : Nat}
    (h : ∀ q s, T.find q = some s → len s = q.length + k) :
    (T.leaves.map fun s => wt s * len s).sum = T.bits wt + T.weight wt * k := by
  induction T generalizing k with
  | leaf s => simp [Tree.leaves, Tree.bits, Tree.weight, h [] s rfl]
  | node l r ihl ihr =>
    have hl := ihl (k := k + 1) fun q s hq => (h (false :: q) s hq).trans (Nat.succ_add_eq_add_succ _ _)
    have hr := ihr (k := k + 1) fun q s hq => (h (true :: q) s hq).trans (Nat.succ_add_eq_add_succ _ _)
    simp only [Tree.leaves, List.map_append, List.sum_append, hl, hr, Tree.bits, Tree.weight]
    ring

/-- The arena holds one tree at a handle. -/
theorem Rep.unique {nodes : List Node} {T U : Tree} {h : Nat} (hT : Rep nodes T h) (hU : Rep nodes U h) : T = U := by
  induction T generalizing U h with
  | leaf s =>
    cases U with
    | leaf r => cases hT.symm.trans hU; rfl
    | node _ _ =>
      obtain ⟨l, r, hn, -, -⟩ := hU
      cases hT.symm.trans hn
  | node Tl Tr ihl ihr =>
    obtain ⟨l, r, hn, hl, hr⟩ := hT
    cases U with
    | leaf s => cases hn.symm.trans hU
    | node Ul Ur =>
      obtain ⟨l', r', hn', hl', hr'⟩ := hU
      cases hn.symm.trans hn'
      rw [ihl hl hl', ihr hr hr']

/-- The leaves of the last tree are the symbols of the table. -/
theorem ForestOk.leaves {ft : Table Long} {f : Forest} (ok : ForestOk ft f) {e : Pending} (he : f.heap = [e]) {T : Tree}
    (hT : Rep f.nodes T e.h) : T.leaves.Perm (ft.map Prod.fst) := by
  obtain ⟨es, hes, hrep, hleaves⟩ := ok.trees
  rw [he] at hes
  obtain ⟨⟨e', U⟩, rfl⟩ := List.length_eq_one_iff.1 (by simpa using hes.length_eq : es.length = 1)
  obtain rfl : e' = e := by simpa using hes
  rw [hT.unique (hrep (e', U) (List.mem_singleton_self _))]
  simpa using hleaves

/-! ### The merge loop -/

/-- The pending entries with the trees they stand for: the weight of an entry is that of its tree. -/
structure Grown (wt : Sym → Nat) (f : Forest) (es : List (Pending × Tree)) : Prop where
  pending : (es.map Prod.fst).Perm f.heap
  rep : ∀ e ∈ es, Rep f.nodes e.2 e.1.h
  weight : ∀ e ∈ es, e.2.weight wt = e.1.w

/-- The bits of all pending trees. -/
def forestBits (wt : Sym → Nat) (es : List (Pending × Tree)) : Nat := (es.map fun e => e.2.bits wt).sum

@[simp] theorem forestBits_cons (wt : Sym → Nat) (e : Pending × Tree) (es : List (Pending × Tree)) :
    forestBits wt (e :: es) = e.2.bits wt + forestBits wt es := rfl

section
variable {wt : Sym → Nat} {f f' : Forest} {es : List (Pending × Tree)}

/-- An entry more, with the tree that a node put at the end of the arena completes. -/
theorem Grown.push {T : Tree} {w : Nat} {more : List Node}
    (hrep : ∀ e ∈ es, Rep f.nodes e.2 e.1.h) (hweight : ∀ e ∈ es, e.2.weight wt = e.1.w)
    (hnodes : f'.nodes = f.nodes ++ more) (hheap : (⟨w, f.nodes.length⟩ :: es.map Prod.fst).Perm f'.heap)
    (hT : Rep f'.nodes T f.nodes.length) (hw : T.weight wt = w) : Grown wt f' ((⟨w, f.nodes.length⟩, T) :: es) where
  pending := hheap
  rep := List.forall_mem_cons.2 ⟨hT, fun e he => hnodes ▸ (hrep e he).append more⟩
  weight := List.forall_mem_cons.2 ⟨hw, hweight⟩

/-- The leaves pushed at the start have no bits yet (R203). -/
theorem Grown.push_leaves {t : Table Long} (hwt : ∀ x ∈ t, wt x.1 = x.2.toNat) (g : Grown wt f es) :
    ∃ es', Grown wt (pushLeaves t f) es' ∧ forestBits wt es' = forestBits wt es := by
  induction t generalizing f es with
  | nil => exact ⟨es, g, rfl⟩
  | cons x t ih =>
    obtain ⟨s, w⟩ := x
    obtain ⟨hw, ht⟩ := List.forall_mem_cons.1 hwt
    have hheap := (g.pending.cons _).trans (heapPush_perm pendingHigher f.heap ⟨w.toNat, f.nodes.length⟩).symm
    obtain ⟨es', g', hbits⟩ := ih (f := ⟨f.nodes ++ [.leaf s], heapPush pendingHigher f.heap _, f.k⟩) ht
      (.push (T := .leaf s) g.rep g.weight rfl hheap (by simp [Rep]) hw)
    exact ⟨es', g', by simpa [Tree.bits] using hbits⟩

/-- The pending weights at the start are those of the table. -/
theorem pushLeaves_weights (t : Table Long) (f : Forest) :
    ((pushLeaves t f).heap.map Pending.w).Perm ((t.map fun x => x.2.toNat) ++ f.heap.map Pending.w) := by
  induction t generalizing f with
  | nil => exact .refl _
  | cons x t ih =>
    obtain ⟨s, w⟩ := x
    refine (ih _).trans ?_
    exact (((heapPush_perm _ _ _).map Pending.w).append_left _).trans List.perm_middle

/-- The tree a merge makes of the two it takes, whichever goes left: one bit more for every leaf of either. -/
theorem Merged.exists_tree {x y : Pending} {rest : List Pending} {l r : Nat} (m : Merged f f' x y rest l r) {X Y : Tree}
    (hX : Rep f.nodes X x.h) (hY : Rep f.nodes Y y.h) :
    ∃ T, Rep f'.nodes T f.nodes.length ∧ T.weight wt = X.weight wt + Y.weight wt ∧
      T.bits wt = X.bits wt + Y.bits wt + (X.weight wt + Y.weight wt) := by
  have hnew : f'.nodes[f.nodes.length]? = some (.internal l r) := by simp [m.nodes]
  have hX' : Rep f'.nodes X x.h := m.nodes ▸ hX.append _
  have hY' : Rep f'.nodes Y y.h := m.nodes ▸ hY.append _
  obtain ⟨rfl, rfl⟩ | ⟨rfl, rfl⟩ := m.sides
  · exact ⟨.node X Y, ⟨_, _, hnew, hX', hY'⟩, rfl, rfl⟩
  · refine ⟨.node Y X, ⟨_, _, hnew, hY', hX'⟩, Nat.add_comm _ _, ?_⟩
    rw [Tree.bits, Nat.add_comm (Y.bits wt), Nat.add_comm (Y.weight wt)]

/-- A merge adds its weight to the bits of the pending trees. -/
theorem Grown.merge {x y : Pending} {rest : List Pending} {l r : Nat} (g : Grown wt f es)
    (m : Merged f f' x y rest l r) :
    ∃ es', Grown wt f' es' ∧ forestBits wt es' = forestBits wt es + (x.w + y.w) := by
  obtain ⟨⟨x, X⟩, es₁, h₁, rfl, hp₁⟩ := perm_map_cons (g.pending.trans m.popped)
  obtain ⟨⟨y, Y⟩, es₂, h₂, rfl, hp₂⟩ := perm_map_cons hp₁
  have hes : es.Perm ((x, X) :: (y, Y) :: es₂) := h₁.trans (h₂.cons _)
  obtain ⟨hX, hY, hrep⟩ : Rep f.nodes X x.h ∧ Rep f.nodes Y y.h ∧ ∀ e ∈ es₂, Rep f.nodes e.2 e.1.h := by
    simpa using fun e he => g.rep e (hes.symm.subset he)
  obtain ⟨hwX, hwY, hweight⟩ : X.weight wt = x.w ∧ Y.weight wt = y.w ∧ ∀ e ∈ es₂, e.2.weight wt = e.1.w := by
    simpa using fun e he => g.weight e (hes.symm.subset he)
  obtain ⟨T, hT, hw, hbits⟩ := m.exists_tree (wt := wt) hX hY
  rw [hwX, hwY] at hw hbits
  refine ⟨_, .push hrep hweight m.nodes ((hp₂.cons _).trans m.heap.symm) hT hw, ?_⟩
  have hsum : forestBits wt es = forestBits wt ((x, X) :: (y, Y) :: es₂) := (hes.map _).sum_eq
  simp only [forestBits_cons] at hsum ⊢
  omega

/-- The merge loop adds to the bits of the pending trees the least number for their weights. -/
theorem mergeAll_leastBits (p : Params) (d : Nat → Bool) (fuel : Nat) (g : Grown wt f es)
    (ho : HeapOrdered pendingHigher f.heap) :
    ∃ es' c, Grown wt (mergeAll p d fuel f) es' ∧ LeastBits (f.heap.map Pending.w) c ∧
      forestBits wt es' = c + forestBits wt es := by
  induction fuel generalizing f es with
  | zero => exact ⟨es, 0, g, leastBits_zero _, (Nat.zero_add _).symm⟩
  | succ n ih =>
    unfold mergeAll
    split
    · next h2 =>
      obtain ⟨f', x, y, rest, l, r, hf', m, -⟩ := mergeOnce_spec p d f h2
      obtain ⟨ho', hxy, hy⟩ := m.lowest ho
      obtain ⟨es₁, g₁, hbits₁⟩ := g.merge m
      obtain ⟨es', c, g', hc, hbits⟩ := ih g₁ ho'
      have hleast := (hc.perm (m.heap.map Pending.w)).merge hxy (List.forall_mem_map.2 hy)
      rw [hf']
      exact ⟨es', c + (x.w + y.w), g', hleast.perm (m.popped.map Pending.w).symm, by omega⟩
    · exact ⟨es, 0, g, leastBits_zero _, (Nat.zero_add _).symm⟩

end

/-! ### The code of a build -/

/-- A listed symbol of a canonical table is present with its value. -/
theorem Table.get?_of_mem {β : Type} {t : Table β} (h : Table.wf t) {x : Sym × β} (hx : x ∈ t) :
    Table.get? t x.1 = some x.2 := by
  induction t with
  | nil => cases hx
  | cons y t ih =>
    obtain ⟨hy, ht⟩ := List.pairwise_cons.1 h
    obtain rfl | hx := List.mem_cons.1 hx
    · exact if_pos rfl
    · have hne : y.1 ≠ x.1 := fun e => Nat.ne_of_lt (hy x hx) (congrArg BitVec.toNat e)
      exact (if_neg hne).trans (ih ht hx)

/-- The weight of a symbol in a frequency table, 0 when absent. -/
def symWeight (ft : Table Long) (s : Sym) : Nat := ((Table.get? ft s).getD 0).toNat

theorem symWeight_of_mem {ft : Table Long} (h : Table.wf ft) {x : Sym × Long} (hx : x ∈ ft) :
    symWeight ft x.1 = x.2.toNat := by
  rw [symWeight, Table.get?_of_mem h hx, Option.getD_some]

/-- A build that succeeds had a symbol, and its arena is that of the merge loop. -/
theorem nodes_of_buildCodec {p : Params} {d : Nat → Bool} {ft : Table Long} {k : Nat} {c : Built}
    (h : buildCodec p d ft k = some c) : ft ≠ [] ∧ c.nodes = (buildForest p d ft k).nodes := by
  refine ⟨fun e => ?_, ?_⟩
  · subst e
    cases h
  · simp only [buildCodec] at h
    split at h
    · cases h
    · split at h
      · cases h
      · cases h
        rfl

/-- The loop ends with one tree, which has the least number of bits for the weights of the table. -/
theorem buildForest_leastBits (p : Params) (d : Nat → Bool) {nsym : Nat} {ft : Table Long} (hft : TableOk nsym ft)
    (hne : ft ≠ []) (k : Nat) :
    ∃ T, Rep (buildForest p d ft k).nodes T (2 * ft.length - 2) ∧ T.leaves.Perm (ft.map Prod.fst) ∧
      LeastBits (ft.map fun x => x.2.toNat) (T.bits (symWeight ft)) := by
  obtain ⟨ok, hlen⟩ := buildForest_ok p d hne k
  obtain ⟨e, he⟩ := List.length_eq_one_iff.1 hlen
  obtain ⟨-, -, hroot, -⟩ := ok.codec hft he
  have hstart : Grown (symWeight ft) ⟨[], [], k⟩ [] := ⟨.refl _, by simp, by simp⟩
  obtain ⟨es, g, hbits⟩ := hstart.push_leaves fun x hx => symWeight_of_mem hft.canonical hx
  have ho : HeapOrdered pendingHigher (pushLeaves ft ⟨[], [], k⟩).heap :=
    ((ForestOk.start k).push_leaves (t := ft) rfl).ordered
  obtain ⟨es', c, g', hleast, hbits'⟩ := mergeAll_leastBits p d ft.length g ho
  have hone : es'.length = 1 := by simpa using g'.pending.length_eq.trans hlen
  obtain ⟨⟨e', T⟩, rfl⟩ := List.length_eq_one_iff.1 hone
  have hpending : [e'].Perm (buildForest p d ft k).heap := g'.pending
  obtain rfl : e' = e := by simpa [he] using hpending
  have hT : Rep (buildForest p d ft k).nodes T e'.h := g'.rep (e', T) (List.mem_singleton_self _)
  rw [hbits] at hbits'
  have hTbits : T.bits (symWeight ft) = c := by simpa [forestBits] using hbits'
  refine ⟨T, hroot ▸ hT, ok.leaves he hT, hTbits ▸ hleast.perm ?_⟩
  simpa using pushLeaves_weights ft ⟨[], [], k⟩

/-- The length of a symbol's codeword, 0 when it has none. -/
def codewordLength (cwt : Table (List Bool)) (s : Sym) : Nat := ((Table.get? cwt s).getD []).length

/-- The codewords of a build take the least number of bits for the weights of the table. -/
theorem buildCodec_leastBits {p : Params} {d : Nat → Bool} {nsym : Nat} {ft : Table Long} {k : Nat} {c : Built}
    (hft : TableOk nsym ft) (hb : buildCodec p d ft k = some c) :
    LeastBits (ft.map fun x => x.2.toNat) (ft.map fun x => x.2.toNat * codewordLength c.cwt x.1).sum := by
  obtain ⟨hne, hnodes⟩ := nodes_of_buildCodec hb
  obtain ⟨c', hb', -, hbuilt, -⟩ := buildCodec_spec p d hft hne k
  cases hb.symm.trans hb'
  obtain ⟨T, hT, hleaves, hleast⟩ := buildForest_leastBits p d hft hne k
  have hlen (q : List Bool) (s : Sym) (hq : T.find q = some s) : codewordLength c.cwt s = q.length + 0 := by
    rw [codewordLength, (hbuilt.codeword s q).2 (hnodes ▸ (hT.follow_leaf q s).2 hq)]
    rfl
  have hsum : (ft.map fun x => x.2.toNat * codewordLength c.cwt x.1).sum = T.bits (symWeight ft) :=
    calc (ft.map fun x => x.2.toNat * codewordLength c.cwt x.1).sum
      _ = (ft.map fun x => symWeight ft x.1 * codewordLength c.cwt x.1).sum :=
        congrArg List.sum (List.map_congr_left fun x hx => by rw [symWeight_of_mem hft.canonical hx])
      _ = ((ft.map Prod.fst).map fun s => symWeight ft s * codewordLength c.cwt s).sum := by
        rw [List.map_map]
        rfl
      _ = (T.leaves.map fun s => symWeight ft s * codewordLength c.cwt s).sum := (hleaves.map _).sum_eq.symm
      _ = T.bits (symWeight ft) := Tree.sum_leaves _ _ hlen
  rw [hsum]
  exact hleast

/-- Settles O57: the build takes the least number of bits that the lengths of a code can. -/
theorem builtCodeHasMinimumRedundancy : Obligations.BuiltCodeHasMinimumRedundancy := by
  intro p d nsym ft k c code hft hb hpf
  have hpresent (x : Sym × Long) (hx : x ∈ ft) : (Table.get? ft x.1).isSome = true :=
    Table.get?_isSome_iff.2 (List.mem_map_of_mem hx)
  have hprefix (x : Sym × Long) (hx : x ∈ ft) (y : Sym × Long) (hy : y ∈ ft) (h : code x.1 <+: code y.1) :
      x.1 = y.1 := by
    by_contra hne
    exact hpf x.1 y.1 (hpresent x hx) (hpresent y hy) hne h
  have hnd : (ft.map fun x => code x.1).Nodup := by
    rw [List.nodup_iff_pairwise_ne, List.pairwise_map]
    refine hft.canonical.imp_of_mem fun hx hy hlt he => Nat.ne_of_lt hlt ?_
    rw [hprefix _ hx _ hy (he ▸ List.prefix_refl _)]
  obtain ⟨n, hk⟩ := exists_kraft_of_prefixFree hnd (by
    simp only [List.forall_mem_map]
    intro x hx y hy h
    rw [hprefix x hx y hy h])
  have hleast := buildCodec_leastBits hft hb n (ft.map fun x => (x.2.toNat, (code x.1).length))
    (by rw [List.map_map]; exact .refl _) (by rw [List.map_map] at hk ⊢; exact hk)
  rwa [totalBits, List.map_map] at hleast

end Sys2Proof.Machine

/-! The symbol buffer and the system commands (44_symbol_buffer_system.md R241 to R247). -/

namespace Sys2Proof.Machine

/-! ### The reset state -/

/-- After a reset every slot is an empty container with no word allocated, whether the machine has the slot or not
(R48). -/
@[simp] theorem slot_doReset (s : State) (a : SlotNo) : s.doReset.slot a = Container.empty := by
  by_cases ha : s.doReset.hasSlot a
  · exact List.eq_of_mem_replicate (slot_mem ha)
  · exact slot_of_not_hasSlot ha

/-- Settles O20: the command responds over the reset state of the machine's own parameters. -/
theorem sysResetLeavesTheResetState : Obligations.SysResetLeavesTheResetState := by
  intro s
  have hslot (a : SlotNo) : (s.doReset.slot a).bits = [] ∧ (s.doReset.slot a).nw = 0 := by
    rw [slot_doReset]
    exact ⟨rfl, rfl⟩
  exact ⟨by decide, rfl, _, rfl, rfl, List.length_replicate, hslot, rfl, rfl, rfl, Table.get?_nil, rfl,
    Table.get?_nil, rfl, rfl⟩

/-! ### SB.CLR and SB.PUSH -/

/-- SB.PUSH at capacity (R242). -/
theorem execSbPush_full {s : State} (x : Sym) (hn : s.sb.length = s.par.sbCap) :
    execSbPush x s = raise s .capacityExceeded :=
  if_pos hn

/-- SB.PUSH with room left (R242). -/
theorem execSbPush_ok {s : State} (x : Sym) (hn : s.sb.length ≠ s.par.sbCap) :
    execSbPush x s = respondOk { s with sb := s.sb ++ [x] } :=
  if_neg hn

/-- Settles O58: CAPACITY_EXCEEDED, or the symbol appended; SB.CLR has no check. -/
theorem sbClrAndPush : Obligations.SbClrAndPush :=
  fun _ x => ⟨rfl, rfl, rfl, rfl, rfl, execSbPush_full x, fun hn => ⟨_, execSbPush_ok x hn, rfl, rfl, rfl⟩⟩

/-! ### SB.GET and SB.LEN -/

/-- SB.GET at or beyond the count of symbols (R243). -/
theorem execSbGet_outOfRange {s : State} {j : Long} (h : s.sb.length ≤ j.toNat) :
    execSbGet j s = raise s .outOfRange := by
  simp only [execSbGet, List.getElem?_eq_none h]

/-- SB.GET of a symbol in the buffer (R243). -/
theorem execSbGet_ok {s : State} {j : Long} {x : Sym} (hx : s.sb[j.toNat]? = some x) :
    execSbGet j s = respond s 0 x 0 := by
  simp only [execSbGet, hx]

/-- SB.LEN answers the count, with the flag of an empty buffer (R244). -/
theorem execSbLen_eq (s : State) :
    execSbLen s = respond s (if s.sb = [] then 1 else 0) 0 (longOf s.sb.length) := by
  simp only [execSbLen, emptyFlag_eq, List.length_eq_zero_iff]

/-- Settles O59: the symbol looked up, and the count with its flag. -/
theorem sbGetAndLen : Obligations.SbGetAndLen :=
  fun s _ => ⟨rfl, rfl, execSbGet_outOfRange, fun _ => execSbGet_ok, rfl, rfl, execSbLen_eq s⟩

/-! ### SYS.NOP and SYS.INFO -/

/-- SYS.INFO of a number that names a parameter (R247). -/
theorem execSysInfo_ok {s : State} {k : Long} {v : Nat} (hv : (infoValues s.par)[k.toNat]? = some v) :
    execSysInfo k s = respond s 0 0 (longOf v) := by
  simp only [execSysInfo, hv]

/-- SYS.INFO of a number beyond the list of parameters (R247). -/
theorem execSysInfo_outOfRange {s : State} {k : Long} (hk : (infoValues s.par).length ≤ k.toNat) :
    execSysInfo k s = raise s .outOfRange := by
  simp only [execSysInfo, List.getElem?_eq_none hk]

/-- Settles O19: each of the six numbers names its parameter in the list, which has no more. -/
theorem sysNopAndInfo : Obligations.SysNopAndInfo := by
  refine fun s => ⟨by decide, rfl, fun _ => ⟨rfl, rfl⟩, rfl, fun k v hkv => execSysInfo_ok ?_,
    fun k hk => execSysInfo_outOfRange hk⟩
  rcases hkv with ⟨rfl, rfl⟩ | ⟨rfl, rfl⟩ | ⟨rfl, rfl⟩ | ⟨rfl, rfl⟩ | ⟨rfl, rfl⟩ | ⟨rfl, rfl⟩ <;> rfl

end Sys2Proof.Machine

/-! How a command can fail (60_exceptions.md): every command word is answered, an error changes nothing but the
response, and each error status comes only from the commands that R261 lists for it. -/

namespace Sys2Proof.Machine

/-! ### Every command word is answered -/

/-- Both ends of a command give a next state with one response, and keep what the host sets. -/
theorem CommandEnd.exists_next {s : State} {x : Answer} (hx : CommandEnd s x) :
    ∃ t r, x = .next t ∧ t.rsp = some r ∧ t.inputs = s.inputs ∧ t.par = s.par := by
  cases hx with
  | raise => exact ⟨_, _, rfl, rfl, rfl, rfl⟩
  | respond hpar hinputs => exact ⟨_, _, rfl, rfl, hinputs, hpar⟩

/-- A step on a command word ends as a command does, begun in the state with the word taken, whether the word decodes
or not (R101). -/
theorem step_end {s : State} {w : PortWord} {rest : List Input} (hin : s.inputs = .command w :: rest) :
    CommandEnd { s with inputs := rest } (step s) := by
  cases hdec : decode s.par w with
  | error e =>
    have hstep : step s = raise { s with inputs := rest } .illegalCommand := step_of_decode_error hin hdec
    rw [hstep]
    exact .raise
  | ok i =>
    rw [step_of_decode_ok hin hdec]
    exact exec_end i _

/-- Settles O11: the step takes no input, a command word or the reset signal, and each gives a next state. -/
theorem everyCommandWordIsAnswered : Obligations.EveryCommandWordIsAnswered := by
  refine ⟨fun s => ?_, fun s w rest hin => (step_end hin).exists_next⟩
  cases hin : s.inputs with
  | nil => exact ⟨s, step_of_no_input hin⟩
  | cons input rest =>
    cases input with
    | command w =>
      obtain ⟨t, -, hstep, -⟩ := (step_end hin).exists_next
      exact ⟨t, hstep⟩
    | resetSignal => exact ⟨_, step_of_resetSignal hin⟩

/-! ### An error changes nothing -/

/-- A response with zero in every field but the status is the status code. -/
theorem word_of_zero_fields (st : Status) : (Response.mk st 0 0 0).word = st.code.setWidth 64 := by
  simp [portWordsAsNumbers.2]

/-- Settles O12: a command that does not respond OK ends with a raise, over the state it began in. -/
theorem errorsChangeNothing : Obligations.ErrorsChangeNothing := by
  intro i s t r h hr hne
  have hend := exec_end i s
  rw [h] at hend
  cases hend with
  | raise =>
    cases hr
    exact ⟨rfl, word_of_zero_fields _⟩
  | respond =>
    cases hr
    exact absurd rfl hne

/-! ### Which errors a command can raise -/

/-- The errors a well-formed command can raise (the "raised by" column of R261), in the order of R270. -/
@[simp] def errorsOf : Instr → List Status
  | .sysInfo _ | .bcGet _ _ | .hcNode _ | .sbGet _ => [.outOfRange]
  | .bcNew _ _ | .bcPush _ _ | .bcExtend _ _ | .bcExti _ _ _ => [.busy, .capacityExceeded]
  | .bcPop _ => [.busy, .empty]
  | .bcSet _ _ _ => [.busy, .outOfRange]
  | .bcFill _ _ | .bcClear _ | .pqCfg _ => [.busy]
  | .bcSnext => [.endOfStream]
  | .pqPush _ _ | .sbPush _ => [.capacityExceeded]
  | .pqPop | .pqPeek => [.empty]
  | .hcBuild => [.invariantViolation]
  | .hcCwget _ _ | .hcEncode _ => [.busy, .unknownSymbol, .capacityExceeded]
  | .hcDecode _ _ => [.emptyTree, .capacityExceeded, .truncatedInput]
  | .sysNop | .sysReset | .bcLen _ | .bcCap _ | .bcSopen _ | .bcSclose | .pqLen | .hcFclr | .hcFput _ _ | .hcFget _
  | .hcStat | .sbClr | .sbLen => []

/-- The command responds OK, or raises one of the given errors. -/
inductive ErrorsAmong (errors : List Status) : Answer → Prop
  | raise {s : State} {st : Status} (hst : st ∈ errors := by simp) : ErrorsAmong errors (raise s st)
  | respond {s : State} {fl : BitVec 8} {rs : Short} {rv : Long} : ErrorsAmong errors (respond s fl rs rv)

namespace ErrorsAmong

theorem ite {errors : List Status} {c : Prop} [Decidable c] {x y : Answer} (hx : ErrorsAmong errors x)
    (hy : ErrorsAmong errors y) : ErrorsAmong errors (if c then x else y) := by
  split
  · exact hx
  · exact hy

/-- A check in front of the rest of a command (R270). -/
theorem check {errors : List Status} {s : State} {c : Prop} [Decidable c] {st : Status} {x : Answer}
    (hx : ErrorsAmong errors x) (hst : st ∈ errors := by simp) :
    ErrorsAmong errors (if c then Machine.raise s st else x) :=
  ite (.raise hst) hx

/-- A status that is not OK is one of the errors. -/
theorem status_mem {errors : List Status} {x : Answer} {t : State} {r : Response} (hx : ErrorsAmong errors x)
    (h : x = .next t) (hr : t.rsp = some r) (hne : r.status ≠ .ok) : r.status ∈ errors := by
  cases hx with
  | raise hst =>
    cases raise_next h
    cases hr
    exact hst
  | respond =>
    cases respond_next h
    cases hr
    exact absurd rfl hne

end ErrorsAmong

/-- The table of R261 is complete: no command raises an error that is not listed for it. -/
theorem exec_errorsAmong (i : Instr) (s : State) : ErrorsAmong (errorsOf i) (exec i s) := by
  cases i with
  | sysNop | sysReset | bcLen | bcCap | bcSopen | bcSclose | pqLen | hcFclr | hcFput | sbClr | sbLen => exact .respond
  | bcFill | bcClear | pqCfg | pqPush | sbPush => exact .check .respond
  | bcNew | bcPush | bcSet | bcExtend | bcExti => exact .check (.check .respond)
  | sysInfo | bcGet | bcSnext | pqPop | pqPeek | sbGet =>
    simp only [exec, execSysInfo, execBcGet, execBcSnext, execPqPop, execPqPeek, execSbGet]
    split
    · exact .raise
    · exact .respond
  | bcPop =>
    refine .check ?_
    split
    · exact .raise
    · exact .respond
  | hcFget =>
    simp only [exec, execHcFget]
    split
    · exact .respond
    · exact .respond
  | hcBuild =>
    refine .ite .respond ?_
    split
    · exact .raise
    · exact .respond
  | hcStat => exact .ite .respond .respond
  | hcNode =>
    simp only [exec, execHcNode]
    split
    · exact .raise
    · exact .respond
    · exact .respond
  | hcCwget | hcEncode =>
    refine .check ?_
    split
    · exact .raise
    · exact .check .respond
  | hcDecode =>
    refine .ite .respond (.check (.check ?_))
    split
    · exact .raise
    · exact .respond

/-! ### INVARIANT_VIOLATION -/

/-- Only HC.BUILD is listed for INVARIANT_VIOLATION (R261). -/
theorem eq_hcBuild_of_invariantViolation {i : Instr} (h : .invariantViolation ∈ errorsOf i) : i = .hcBuild := by
  cases i with
  | hcBuild => rfl
  | _ => simp at h

/-- The build of a table indexed by symbol cannot fail (R284): it makes the empty codec, or a codec of the present
symbols (R197, R199). -/
theorem execHcBuild_no_errors {s : State} (hft : TableOk s.par.nsym s.ft) : ErrorsAmong [] (execHcBuild s) := by
  by_cases hne : s.ft = []
  · rw [execHcBuild_empty hne]
    exact .respond
  · obtain ⟨c, hb, -⟩ := buildCodec_spec s.par Config.draw hft hne s.draws
    rw [execHcBuild_built hne hb]
    exact .respond

/-- Settles O13: no other command raises it, and the build of a canonical table does not fail. -/
theorem invariantViolationIsUnreachable : Obligations.InvariantViolationIsUnreachable := by
  intro i s t r hft h hr hv
  have hne : r.status ≠ .ok := by simp [hv]
  have hmem : .invariantViolation ∈ errorsOf i := hv ▸ (exec_errorsAmong i s).status_mem h hr hne
  cases eq_hcBuild_of_invariantViolation hmem
  exact List.not_mem_nil ((execHcBuild_no_errors hft).status_mem h hr hne)

end Sys2Proof.Machine
